-- ==== Sys2Proof/Word.lean ====
section
/-! DEFINITION. The 32-bit word and the 8-bit byte (00_scope.md R7, R8), and the signed reading of a word (R14). -/

namespace Sys2Proof

/-- R7: the sole storage type of the block, an element of 0 .. 2^32-1. -/
abbrev Word := BitVec 32

/-- R8: the byte of the companion buffer. -/
abbrev Byte := BitVec 8

/-- R14: `signed32(v)`, the two's-complement reading of a word. -/
abbrev signed32 (v : Word) : Int := v.toInt

end Sys2Proof
end

