-- ==== Sys2Proof/Config.lean ====
section
/-! DEFINITION. The signed-representation names of the source (30_encoding.md R84), the implementation parameters the spec
leaves OPEN (00_scope.md R9 to R13) as plain data, and the free values no rule fixes. -/

namespace Sys2Proof

/-- R84: the source's Representation enumeration. Only the first four are implemented. -/
inductive Representation where
  | noSign
  | onesComplement
  | signedMagnitude
  | twosComplement
  | excess
  | base
  | biased
  | zigZag
  | any
  | all
  deriving DecidableEq, Repr

/-- R84: what an FMT field can say: a Representation, or one of the 8-bit values that is none. -/
inductive Fmt where
  | rep (r : Representation)
  | other (code : BitVec 8)
  deriving DecidableEq, Repr

/-- R11: the host's signed-integer representation, the values of HOST_REP. -/
inductive HostRep where
  | twosComplement
  | onesComplement
  | signedMagnitude
  | other
  deriving DecidableEq, Repr

/-- One entry of the LATENCY parameter's table (R12): the command `word` on operands `a` and `b` takes
`extra` cycles beyond the first. -/
structure LatencyEntry where
  word  : Word
  a     : Word
  b     : Word
  extra : Nat
  deriving DecidableEq, Repr

/-- The five OPEN parameters (R9 to R13). Fixed for a machine; State carries them so that a statement about every
state is a statement about every value of them (DESIGN CHOICE, log 1). -/
structure Config where
  /-- R9: HAS_COMPANION. -/
  hasCompanion : Bool
  /-- R10: BUF_LEN, 0 .. 2^20. -/
  bufLen       : Fin (2 ^ 20 + 1)
  /-- R11: HOST_REP. -/
  hostRep      : HostRep
  /-- R12: LATENCY, as a finite table; what it does not list takes one cycle (log 9). -/
  latencies    : List LatencyEntry
  /-- R13: BASE. -/
  base         : Word
  deriving DecidableEq, Repr

/-- The configuration of `State.reset`: the one 95_test_vectors.md takes where it states no other (HAS_COMPANION true,
BUF_LEN 4, HOST_REP TwosComplement), with BASE 0 and every latency one cycle. DESIGN CHOICE, unsafe, log 1: the spec
leaves all five OPEN, so no statement may rest on it. -/
def Config.ofVectors : Config :=
  { hasCompanion := true, bufLen := 4, hostRep := .twosComplement, latencies := [], base := 0 }

/-- The free draw number `n` of a 32-bit value the spec leaves unspecified (R37, R281; V2 and V4): no value of it can be proved (log 5). -/
opaque Config.freeWord : Nat → Word

/-- The free draw number `n` of a buffer byte the host has not written (R63; V3): no value of it can be proved (log 5). -/
opaque Config.freeByte : Nat → Byte

end Sys2Proof
end

