-- ==== Sys2Proof/Syntax.lean ====
section
/-! DEFINITION. The 24 commands of 30_encoding.md R83, one constructor per row of opcode_table.json. Data operands are never
in the command word (R81), so a constructor carries only the FMT, BITOFF and REV fields its command takes. -/

namespace Sys2Proof

inductive Instr where
  /-- R102: start a bit sequence. -/
  | bsrInit (bitoff : BitVec 3) (rev : Bool)
  /-- R105: consume one element of the sequence. -/
  | bsrNext
  /-- R121: the detected representation. -/
  | repget
  /-- R125 -/
  | ones
  /-- R126 -/
  | twos
  /-- R127 -/
  | smag
  /-- R129 -/
  | tc2sm
  /-- R130 -/
  | sm2tc
  /-- R140 -/
  | prep (fmt : Fmt)
  /-- R141 -/
  | and (fmt : Fmt)
  /-- R142 -/
  | or (fmt : Fmt)
  /-- R143 -/
  | xor (fmt : Fmt)
  /-- R144 -/
  | nand (fmt : Fmt)
  /-- R145 -/
  | nor (fmt : Fmt)
  /-- R146 -/
  | xxor (fmt : Fmt)
  /-- R147 -/
  | bxor
  /-- R161 -/
  | add
  /-- R163 -/
  | sub
  /-- R171 -/
  | mul
  /-- R181 -/
  | div
  /-- R182 -/
  | mod
  /-- R201 -/
  | sqrt
  /-- R211 -/
  | log
  /-- R213 -/
  | log2
  deriving DecidableEq, Repr

/-- R91: the pseudo-instruction NEG is TWOS. -/
abbrev Instr.neg : Instr := .twos

/-- R91: the pseudo-instruction NOT is ONES. -/
abbrev Instr.not : Instr := .ones

end Sys2Proof
end

