-- ==== Sys2Proof/Machine/Codes.lean ====
section
/-! DEFINITION. The numbers 30_encoding.md assigns: representation codes (R84) and OP values (R83), and which commands belong to
the companion unit (R88). -/

namespace Sys2Proof

/-- R84: the code of a Representation. -/
def Representation.code : Representation → BitVec 8
  | .noSign          => 0x00
  | .onesComplement  => 0x01
  | .signedMagnitude => 0x02
  | .twosComplement  => 0x04
  | .excess          => 0x08
  | .base            => 0x10
  | .biased          => 0x20
  | .zigZag          => 0x40
  | .any             => 0x7F
  | .all             => 0xFF

/-- R84: the Representation an FMT value names, if it names one. -/
def Representation.ofCode (c : BitVec 8) : Option Representation :=
  if c = 0x00 then some .noSign
  else if c = 0x01 then some .onesComplement
  else if c = 0x02 then some .signedMagnitude
  else if c = 0x04 then some .twosComplement
  else if c = 0x08 then some .excess
  else if c = 0x10 then some .base
  else if c = 0x20 then some .biased
  else if c = 0x40 then some .zigZag
  else if c = 0x7F then some .any
  else if c = 0xFF then some .all
  else none

/-- R80, R84: the FMT field of a format. -/
def Fmt.code : Fmt → BitVec 8
  | .rep r   => r.code
  | .other c => c

/-- R82, R84: the format an FMT field says. -/
def Fmt.ofCode (c : BitVec 8) : Fmt :=
  match Representation.ofCode c with
  | some r => .rep r
  | none   => .other c

/-- R83: the OP value of a command. -/
def Instr.opcode : Instr → BitVec 8
  | .bsrInit _ _ => 0x01
  | .bsrNext     => 0x02
  | .repget      => 0x10
  | .ones        => 0x11
  | .twos        => 0x12
  | .smag        => 0x13
  | .tc2sm       => 0x14
  | .sm2tc       => 0x15
  | .prep _      => 0x20
  | .and _       => 0x21
  | .or _        => 0x22
  | .xor _       => 0x23
  | .nand _      => 0x24
  | .nor _       => 0x25
  | .xxor _      => 0x26
  | .bxor        => 0x27
  | .add         => 0x30
  | .sub         => 0x31
  | .mul         => 0x32
  | .div         => 0x33
  | .mod         => 0x34
  | .sqrt        => 0x35
  | .log         => 0x36
  | .log2        => 0x37

/-- R88: whether a command is a companion command. -/
def Instr.isCompanion : Instr → Bool
  | .bsrInit _ _ | .bsrNext | .repget | .and _ | .or _ | .xor _ | .nand _ | .nor _ | .xxor _ | .bxor => true
  | .ones | .twos | .smag | .tc2sm | .sm2tc | .prep _ | .add | .sub | .mul | .div | .mod | .sqrt | .log | .log2 => false

/-- R80: the FMT field of a command's word, 0 where the command takes none. -/
def Instr.fmtField : Instr → BitVec 8
  | .prep f | .and f | .or f | .xor f | .nand f | .nor f | .xxor f => f.code
  | .bsrInit _ _ | .bsrNext | .repget | .ones | .twos | .smag | .tc2sm | .sm2tc | .bxor
  | .add | .sub | .mul | .div | .mod | .sqrt | .log | .log2 => 0

end Sys2Proof
end

