-- ==== Sys2Proof/WellFormed.lean ====
section
/-! DEFINITION. Which terms of Instr stand for a command: a format written as a raw code must not be the code of a
Representation (30_encoding.md R84), so that every FMT value is written in exactly one way (log 18). BITOFF and REV fit by their types (R85). -/

namespace Sys2Proof

/-- R84: a raw code is none of the ten assigned codes. -/
def Fmt.wf : Fmt → Bool
  | .rep _   => true
  | .other c => (Representation.ofCode c).isNone

/-- The format a command carries is well-formed. -/
def Instr.wf : Instr → Bool
  | .prep f | .and f | .or f | .xor f | .nand f | .nor f | .xxor f => f.wf
  | .bsrInit _ _ | .bsrNext | .repget | .ones | .twos | .smag | .tc2sm | .sm2tc | .bxor
  | .add | .sub | .mul | .div | .mod | .sqrt | .log | .log2 => true

end Sys2Proof
end

