-- ==== Sys2Proof/Decode.lean ====
section
/-! DEFINITION. Decoding a command word (30_encoding.md R80, R82, R86, R87), total on all 2^32 words and rejecting by name; the
encoder; and the opcode table with its masks and matches (R87). -/

namespace Sys2Proof

/-- R86: why a word is not legal. -/
inductive DecodeError where
  /-- Condition 1: the OP value is unassigned. -/
  | unassignedOp
  /-- Condition 2: a companion opcode and HAS_COMPANION is false. -/
  | companionAbsent
  /-- Condition 3: a bit of 31:20 is set. -/
  | reservedBits
  /-- Condition 4: FMT is not 0 and the command takes none. -/
  | fmtNotZero
  /-- Condition 5: BITOFF or REV is not 0 and the command is not BSR_INIT. -/
  | bitoffRevNotZero
  deriving DecidableEq, Repr

/-- R80: CMD.OP, bits 7:0. -/
def cmdOp (w : Word) : BitVec 8 := w.extractLsb' 0 8

/-- R80: CMD.FMT, bits 15:8. -/
def cmdFmt (w : Word) : BitVec 8 := w.extractLsb' 8 8

/-- R80: CMD.BITOFF, bits 18:16. -/
def cmdBitoff (w : Word) : BitVec 3 := w.extractLsb' 16 3

/-- R80: CMD.REV, bit 19. -/
def cmdRev (w : Word) : Bool := w.getLsbD 19

/-- R80: the reserved bits 31:20. -/
def cmdRsv (w : Word) : BitVec 12 := w.extractLsb' 20 12

/-- R86 condition 5: BITOFF and REV are both 0. -/
def cmdNoBits (w : Word) : Bool := w.extractLsb' 16 4 == 0

/-- A command that takes no field: FMT, BITOFF and REV must be 0 (R86 conditions 4 and 5). -/
def decodePlain (i : Instr) (w : Word) : Except DecodeError Instr :=
  if cmdFmt w ≠ 0 then .error .fmtNotZero
  else if cmdNoBits w then .ok i
  else .error .bitoffRevNotZero

/-- A command that takes FMT: BITOFF and REV must be 0 (R86 condition 5). -/
def decodeFmt (i : Fmt → Instr) (w : Word) : Except DecodeError Instr :=
  if cmdNoBits w then .ok (i (Fmt.ofCode (cmdFmt w))) else .error .bitoffRevNotZero

/-- BSR_INIT takes BITOFF and REV: FMT must be 0 (R86 condition 4). -/
def decodeBsrInit (w : Word) : Except DecodeError Instr :=
  if cmdFmt w ≠ 0 then .error .fmtNotZero else .ok (.bsrInit (cmdBitoff w) (cmdRev w))

/-- R86 condition 2: a companion opcode needs HAS_COMPANION. -/
def decodeCompanion (hasCompanion : Bool) (r : Except DecodeError Instr) : Except DecodeError Instr :=
  if hasCompanion then r else .error .companionAbsent

/-- R86, R87: the command a word says, or why the word is not legal. It depends only on the word and HAS_COMPANION. -/
def decode (hasCompanion : Bool) (w : Word) : Except DecodeError Instr :=
  if cmdRsv w ≠ 0 then .error .reservedBits
  else match (cmdOp w).toNat with
    | 0x01 => decodeCompanion hasCompanion (decodeBsrInit w)
    | 0x02 => decodeCompanion hasCompanion (decodePlain .bsrNext w)
    | 0x10 => decodeCompanion hasCompanion (decodePlain .repget w)
    | 0x11 => decodePlain .ones w
    | 0x12 => decodePlain .twos w
    | 0x13 => decodePlain .smag w
    | 0x14 => decodePlain .tc2sm w
    | 0x15 => decodePlain .sm2tc w
    | 0x20 => decodeFmt .prep w
    | 0x21 => decodeCompanion hasCompanion (decodeFmt .and w)
    | 0x22 => decodeCompanion hasCompanion (decodeFmt .or w)
    | 0x23 => decodeCompanion hasCompanion (decodeFmt .xor w)
    | 0x24 => decodeCompanion hasCompanion (decodeFmt .nand w)
    | 0x25 => decodeCompanion hasCompanion (decodeFmt .nor w)
    | 0x26 => decodeCompanion hasCompanion (decodeFmt .xxor w)
    | 0x27 => decodeCompanion hasCompanion (decodePlain .bxor w)
    | 0x30 => decodePlain .add w
    | 0x31 => decodePlain .sub w
    | 0x32 => decodePlain .mul w
    | 0x33 => decodePlain .div w
    | 0x34 => decodePlain .mod w
    | 0x35 => decodePlain .sqrt w
    | 0x36 => decodePlain .log w
    | 0x37 => decodePlain .log2 w
    | _    => .error .unassignedOp

/-- What the decoder, with the companion unit present, reads from an instruction of `nbits` bits numbered as the table numbers
them. The command word is one 32-bit word (R80), so the bits are the word; a word of more than 32 bits is no command. -/
def decodeTableWord (nbits w : Nat) : Option Instr :=
  let bits := w % 2 ^ nbits
  if bits < 2 ^ 32 then (decode true (BitVec.ofNat 32 bits)).toOption else none

/-- R80: a command word from its fields, the reserved bits 0. -/
def cmdWord (rev : Bool) (bitoff : BitVec 3) (fmt op : BitVec 8) : Word :=
  (0#12 ++ (BitVec.ofBool rev ++ (bitoff ++ (fmt ++ op))) : BitVec (12 + (1 + (3 + (8 + 8)))))

/-- R80, R83: the word of a command. -/
def encode : Instr → Word
  | .bsrInit bitoff rev => cmdWord rev bitoff 0 (Instr.bsrInit bitoff rev).opcode
  | .prep f  => cmdWord false 0 f.code (Instr.prep f).opcode
  | .and f   => cmdWord false 0 f.code (Instr.and f).opcode
  | .or f    => cmdWord false 0 f.code (Instr.or f).opcode
  | .xor f   => cmdWord false 0 f.code (Instr.xor f).opcode
  | .nand f  => cmdWord false 0 f.code (Instr.nand f).opcode
  | .nor f   => cmdWord false 0 f.code (Instr.nor f).opcode
  | .xxor f  => cmdWord false 0 f.code (Instr.xxor f).opcode
  | .bsrNext => cmdWord false 0 0 Instr.bsrNext.opcode
  | .repget  => cmdWord false 0 0 Instr.repget.opcode
  | .ones    => cmdWord false 0 0 Instr.ones.opcode
  | .twos    => cmdWord false 0 0 Instr.twos.opcode
  | .smag    => cmdWord false 0 0 Instr.smag.opcode
  | .tc2sm   => cmdWord false 0 0 Instr.tc2sm.opcode
  | .sm2tc   => cmdWord false 0 0 Instr.sm2tc.opcode
  | .bxor    => cmdWord false 0 0 Instr.bxor.opcode
  | .add     => cmdWord false 0 0 Instr.add.opcode
  | .sub     => cmdWord false 0 0 Instr.sub.opcode
  | .mul     => cmdWord false 0 0 Instr.mul.opcode
  | .div     => cmdWord false 0 0 Instr.div.opcode
  | .mod     => cmdWord false 0 0 Instr.mod.opcode
  | .sqrt    => cmdWord false 0 0 Instr.sqrt.opcode
  | .log     => cmdWord false 0 0 Instr.log.opcode
  | .log2    => cmdWord false 0 0 Instr.log2.opcode

/-- R83, R89: the mnemonic of a command. -/
def Instr.mnemonic : Instr → String
  | .bsrInit _ _ => "BSR_INIT"
  | .bsrNext     => "BSR_NEXT"
  | .repget      => "REPGET"
  | .ones        => "ONES"
  | .twos        => "TWOS"
  | .smag        => "SMAG"
  | .tc2sm       => "TC2SM"
  | .sm2tc       => "SM2TC"
  | .prep _      => "PREP"
  | .and _       => "AND"
  | .or _        => "OR"
  | .xor _       => "XOR"
  | .nand _      => "NAND"
  | .nor _       => "NOR"
  | .xxor _      => "XXOR"
  | .bxor        => "BXOR"
  | .add         => "ADD"
  | .sub         => "SUB"
  | .mul         => "MUL"
  | .div         => "DIV"
  | .mod         => "MOD"
  | .sqrt        => "SQRT"
  | .log         => "LOG"
  | .log2        => "LOG2"

/-- R89: the hexadecimal digit of a 4-bit value. -/
def hexDigit (n : Nat) : Char := if n < 10 then Char.ofNat (48 + n) else Char.ofNat (55 + n)

/-- R89: the suffix of a format in assembler. -/
def Fmt.suffix : Fmt → String
  | .rep .noSign          => ".NS"
  | .rep .onesComplement  => ".OC"
  | .rep .signedMagnitude => ".SM"
  | .rep .twosComplement  => ".TC"
  | .rep .excess          => ".EX"
  | .rep .base            => ".BASE"
  | .rep .biased          => ".BI"
  | .rep .zigZag          => ".ZZ"
  | .rep .any             => ".ANY"
  | .rep .all             => ".ALL"
  | .other c              => ".#" ++ String.ofList [hexDigit (c.toNat / 16), hexDigit (c.toNat % 16)]

/-- R89: a command as its assembler text. -/
def Instr.asm : Instr → String
  | .bsrInit p rev => "BSR_INIT " ++ String.ofList [hexDigit p.toNat] ++ (if rev then ", R" else "")
  | .prep f => "PREP" ++ f.suffix
  | .and f  => "AND" ++ f.suffix
  | .or f   => "OR" ++ f.suffix
  | .xor f  => "XOR" ++ f.suffix
  | .nand f => "NAND" ++ f.suffix
  | .nor f  => "NOR" ++ f.suffix
  | .xxor f => "XXOR" ++ f.suffix
  | i       => i.mnemonic

/-- One row of opcode_table.json (R83, R87). -/
structure OpcodeRow where
  mnemonic  : String
  matchBits : Word
  mask      : Word
  companion : Bool
  deriving DecidableEq, Repr

/-- R87: the rows of the opcode table, in its order. -/
def opcodeTable : List OpcodeRow :=
  [ ⟨"BSR_INIT", 0x00000001, 0xFFF0FFFF, true⟩,
    ⟨"BSR_NEXT", 0x00000002, 0xFFFFFFFF, true⟩,
    ⟨"REPGET",   0x00000010, 0xFFFFFFFF, true⟩,
    ⟨"ONES",     0x00000011, 0xFFFFFFFF, false⟩,
    ⟨"TWOS",     0x00000012, 0xFFFFFFFF, false⟩,
    ⟨"SMAG",     0x00000013, 0xFFFFFFFF, false⟩,
    ⟨"TC2SM",    0x00000014, 0xFFFFFFFF, false⟩,
    ⟨"SM2TC",    0x00000015, 0xFFFFFFFF, false⟩,
    ⟨"PREP",     0x00000020, 0xFFFF00FF, false⟩,
    ⟨"AND",      0x00000021, 0xFFFF00FF, true⟩,
    ⟨"OR",       0x00000022, 0xFFFF00FF, true⟩,
    ⟨"XOR",      0x00000023, 0xFFFF00FF, true⟩ ] ++
  [ ⟨"NAND",     0x00000024, 0xFFFF00FF, true⟩,
    ⟨"NOR",      0x00000025, 0xFFFF00FF, true⟩,
    ⟨"XXOR",     0x00000026, 0xFFFF00FF, true⟩,
    ⟨"BXOR",     0x00000027, 0xFFFFFFFF, true⟩,
    ⟨"ADD",      0x00000030, 0xFFFFFFFF, false⟩,
    ⟨"SUB",      0x00000031, 0xFFFFFFFF, false⟩,
    ⟨"MUL",      0x00000032, 0xFFFFFFFF, false⟩,
    ⟨"DIV",      0x00000033, 0xFFFFFFFF, false⟩,
    ⟨"MOD",      0x00000034, 0xFFFFFFFF, false⟩,
    ⟨"SQRT",     0x00000035, 0xFFFFFFFF, false⟩,
    ⟨"LOG",      0x00000036, 0xFFFFFFFF, false⟩,
    ⟨"LOG2",     0x00000037, 0xFFFFFFFF, false⟩ ]

/-- R87: whether a row takes a word. -/
def OpcodeRow.takes (hasCompanion : Bool) (w : Word) (r : OpcodeRow) : Bool :=
  (w &&& r.mask == r.matchBits) && (!r.companion || hasCompanion)

/-- R87: the decoding procedure as the spec writes it, over the table: the mnemonic, or none where the word is illegal. -/
def decodeByTable (hasCompanion : Bool) (w : Word) : Option String :=
  (opcodeTable.find? (OpcodeRow.takes hasCompanion w)).map OpcodeRow.mnemonic

end Sys2Proof
end

