-- ==== Sys2Proof/Machine/State.lean ====
section
/-! DEFINITION. The block's state as plain data (10_state.md), with the host's pending events, and its value after reset (R37). -/

namespace Sys2Proof.Machine

/-- R34: the companion buffer: (index, byte) pairs, indices strictly rising. A byte that is not listed has not been written
by the host since reset and has no value (R37, R63). -/
abbrev Memory := List Host.Cell

/-- R26: the STATUS register's fields. Bits 3 and 31:9 are reserved and read 0 (`Status.word`). -/
structure Status where
  busy   : Bool
  done   : Bool
  err    : Bool
  ecode  : BitVec 4
  sticky : Bool
  deriving DecidableEq, Repr

/-- R30: the REPSTAT register's fields. -/
structure RepStat where
  valid : Bool
  fatal : Bool
  rep   : BitVec 8
  deriving DecidableEq, Repr

/-- R31: the BSRSTAT register's fields. -/
structure BsrStat where
  active : Bool
  rev    : Bool
  bit    : BitVec 3
  deriving DecidableEq, Repr

/-- R27, R38 item 1: what a command latches when it starts. -/
structure Latch where
  word : Word
  a    : Word
  b    : Word
  deriving DecidableEq, Repr

/-- R230: the error codes a command can end with. -/
inductive ErrorCode where
  | unsupportedArchitecture
  | unsupportedFormat
  | divideByZero
  | indexOutOfRange
  | illegalCommand
  | logBaseOne
  deriving DecidableEq, Repr

/-- R20: the host-visible registers. -/
inductive Reg where
  | opa
  | opb
  | cmd
  | res
  | aux
  | status
  | repstat
  | bsrstat
  | bsrbyte
  | bsrrem
  deriving DecidableEq, Repr

/-- A host read or write of some number of bytes (R61, R62). -/
inductive Transfer where
  | read (bytes : Nat)
  | write (bytes : Nat) (data : Nat)
  deriving DecidableEq, Repr

/-- One host access: which agent makes it (R76), whether it is the last of that agent's sequence (log 10), its address in the
host's address space (R60), and what it transfers. -/
structure Access where
  agent    : Nat
  last     : Bool
  addr     : Word
  transfer : Transfer
  deriving DecidableEq, Repr

/-- What reaches the block from outside: an access, one cycle of its clock (R12), or its reset input (R270). -/
inductive HostEvent where
  | access (a : Access)
  | cycle
  | reset
  deriving DecidableEq, Repr

/-- Everything the spec gives the block (R20 to R38), its parameters, and the model's own bookkeeping (the last four fields). -/
structure State where
  /-- R9 to R13: the parameters, the same in every state of a run. -/
  cfg        : Config
  /-- R21. -/
  opa        : Word
  /-- R36: the host has written OPA since reset. -/
  opaWritten : Bool
  /-- R22. -/
  opb        : Word
  /-- R36: the host has written OPB since reset. -/
  opbWritten : Bool
  /-- R23. -/
  cmd        : Word
  /-- R24. -/
  res        : Word
  /-- R37: a command has written RES since reset. -/
  resWritten : Bool
  /-- R25. -/
  aux        : Word
  /-- R37: a command has written AUX since reset. -/
  auxWritten : Bool
  /-- R26. -/
  status     : Status
  /-- R30. -/
  repstat    : RepStat
  /-- R31. -/
  bsrstat    : BsrStat
  /-- R32. -/
  bsrbyte    : Word
  /-- R32. -/
  bsrrem     : Word
  /-- R34. -/
  buf        : Memory
  /-- R38 item 1: the latched inputs of the command in flight; not read when none is. -/
  latch      : Latch
  /-- R38 item 2: the cycles until the command in flight completes; 0 when none is. -/
  remaining  : Nat
  /-- The host's pending events, oldest first (log 6). -/
  host       : List HostEvent
  /-- R76: the agent inside whose sequence the port is (log 10). -/
  owner      : Option Nat
  /-- The word the latest host read returned (log 16). -/
  answer     : Option Word
  /-- How many free values have been drawn (log 5). -/
  draws      : Nat
  deriving DecidableEq, Repr

/-- The host contract violations, each of which the spec says a model treats as a fault of the run (70_reset_and_hazards.md R280),
and an access that is not to the block. All are raised by a host access, never by an instruction. Safe: the
run stops where the spec gives the block no meaning. -/
inductive Fault where
  /-- R280 item 1, raised by a host write of CMD while BUSY. Safe. -/
  | cmdWriteWhileBusy
  /-- R280 item 2, raised by a host write of BUF while BUSY. Safe. -/
  | bufWriteWhileBusy
  /-- R280 item 3 and R36 (93_implementation_defined.md V1: fault; 95_test_vectors.md H6), raised by a CMD write whose command reads an
  operand the host has not written. Safe. -/
  | unwrittenOperand
  /-- R280 item 4 and R61, raised by a register-range access that is not an aligned 32-bit word. Safe. -/
  | registerAccessForm
  /-- R280 item 4 and R62, raised by a BUF-range access that is not one byte. Safe. -/
  | bufAccessForm
  /-- R280 item 5 and R76, raised by an access of one agent inside another's sequence. Safe. -/
  | interleavedAgents
  /-- R60, raised by an access outside the block's window (log 11). Safe. -/
  | outsideWindow
  deriving DecidableEq, Repr

/-- Why the model has no meaning for an instruction. -/
inductive Refusal where
  /-- Raised by `exec` for an instruction that has no meaning yet; every instruction has one, so nothing raises it. Safe. -/
  | notModelled (mnemonic : String)
  deriving DecidableEq, Repr

/-- R37: the block right after reset, for given parameters. OPA, OPB, RES and AUX are UNSPECIFIED there: their 0 is a DESIGN
CHOICE that nothing reads while the register is unwritten (logs 2, 3); the latch's 0 likewise (log 7). -/
def State.resetOf (cfg : Config) : State :=
  { cfg := cfg
    opa := 0, opaWritten := false, opb := 0, opbWritten := false, cmd := 0
    res := 0, resWritten := false, aux := 0, auxWritten := false
    status := { busy := false, done := false, err := false, ecode := 0, sticky := false }
    repstat := { valid := false, fatal := false, rep := 0 }
    bsrstat := { active := false, rev := false, bit := 0 }
    bsrbyte := 0, bsrrem := 0, buf := []
    latch := { word := 0, a := 0, b := 0 }, remaining := 0
    host := [], owner := none, answer := none, draws := 0 }

/-- R37: the machine right after reset, in the configuration of the spec's test vectors (log 1). -/
def State.reset : State := State.resetOf Config.ofVectors

end Sys2Proof.Machine
end

