-- ==== Sys2Proof/Machine/Units.lean ====
section
/-! DEFINITION. The block's arithmetic units as the spec writes their loops (43_adder.md to 47_logarithm.md): each loop runs on
a count equal to the bound the spec gives it, and stops early where the spec's condition says (log 19). -/

namespace Sys2Proof.Machine

/-- The result of the divider: quotient and remainder (R180). -/
structure QuotRem where
  q : Word
  r : Word
  deriving DecidableEq, Repr

/-- R160: the adder's loop, at most `n` iterations. -/
def adderLoop : Nat → Word → Word → Word
  | 0, a, _ => a
  | n + 1, a, b => if b = 0 then a else adderLoop n (a ^^^ b) ((a &&& b) <<< 1)

/-- R160: `Adder(a, b)`; the loop runs at most 32 times. -/
def adder (a b : Word) : Word := adderLoop 32 a b

/-- R162: `Subtractor(a, b)`. -/
def subtractor (a b : Word) : Word := adder a (adder (~~~b) 1)

/-- R170: the multiplier's loop, at most `n` iterations. -/
def multiplierLoop : Nat → Word → Word → Word → Word
  | 0, acc, _, _ => acc
  | n + 1, acc, a, b =>
    if b = 0 then acc
    else multiplierLoop n (if b.getLsbD 0 then adder acc a else acc) (a <<< 1) (b >>> 1)

/-- R170: `Multiplier(a, b)`; the loop runs at most 32 times. -/
def multiplier (a b : Word) : Word := multiplierLoop 32 0 a b

/-- R180: the alignment loop; the guard is bit 31 (90_conflicts.md C1). -/
def alignLoop : Nat → Word → Word → Word
  | 0, _, hold => hold
  | n + 1, a, hold => if hold < a ∧ hold.getLsbD 31 = false then alignLoop n a (hold <<< 1) else hold

/-- R180: the main loop, one step per quotient bit. -/
def divideLoop : Nat → Word → Word → Word → Word → QuotRem
  | 0, a, _, _, q => ⟨q, a⟩
  | n + 1, a, b, hold, q =>
    if b ≤ hold then
      if hold ≤ a then divideLoop n (subtractor a hold) b (hold >>> 1) ((q <<< 1) ||| 1)
      else divideLoop n a b (hold >>> 1) (q <<< 1)
    else ⟨q, a⟩

/-- R180, R184: `DivCore(a, b)` for b other than 0; at most 31 alignment shifts and 32 main steps. -/
def divCore (a b : Word) : QuotRem := divideLoop 32 a b (alignLoop 31 a b) 0

/-- R200: the highest power of 4 not exceeding `n`, by shifts of 2; 0 when n = 0. -/
def trialLoop : Nat → Word → Word → Word
  | 0, _, one => one
  | k + 1, n, one => if n < one then trialLoop k n (one >>> 2) else one

/-- R200: the main loop of the square root. -/
def sqrtLoop : Nat → Word → Word → Word → Word
  | 0, _, _, root => root
  | k + 1, n, one, root =>
    if one = 0 then root
    else
      let temp := adder root one
      if temp ≤ n then sqrtLoop k (subtractor n temp) (one >>> 2) (adder (root >>> 1) one)
      else sqrtLoop k n (one >>> 2) (root >>> 1)

/-- R200, R202: `SqrtCore(n)`; at most 16 alignment shifts and 16 main steps. -/
def sqrtCore (n : Word) : Word := sqrtLoop 16 n (trialLoop 16 n ((1 : Word) <<< 30)) 0

/-- R212: the binary logarithm's loop. -/
def binLogLoop : Nat → Word → Word → Word
  | 0, _, c => c
  | k + 1, n, c => if 2 ≤ n then binLogLoop k (n >>> 1) (adder c 1) else c

/-- R212, R214: `BinLogCore(n)`; at most 31 iterations. -/
def binLogCore (n : Word) : Word := binLogLoop 31 n 0

end Sys2Proof.Machine
end

