-- ==== Sys2Proof/Machine/Operands.lean ====
section
/-! DEFINITION. How a command reads its operands (30_encoding.md R81, R83): which of OPA and OPB it reads, as an unsigned word, a
signed count, a boolean, or converted to a representation (41_representation.md R132). -/

namespace Sys2Proof.Machine

/-- R83: whether a command reads OPA. -/
def readsA : Instr → Bool
  | .bsrNext | .repget => false
  | .bsrInit _ _ | .ones | .twos | .smag | .tc2sm | .sm2tc | .prep _ | .and _ | .or _ | .xor _ | .nand _ | .nor _ | .xxor _
  | .bxor | .add | .sub | .mul | .div | .mod | .sqrt | .log | .log2 => true

/-- R83: whether a command reads OPB. -/
def readsB : Instr → Bool
  | .bsrNext | .repget | .ones | .twos | .smag | .tc2sm | .sm2tc | .sqrt | .log2 => false
  | .bsrInit _ _ | .prep _ | .and _ | .or _ | .xor _ | .nand _ | .nor _ | .xxor _ | .bxor | .add | .sub | .mul | .div | .mod
  | .log => true

/-- R36: every operand the command reads has been written by the host. -/
def operandsWritten (i : Instr) (s : State) : Bool :=
  (!readsA i || s.opaWritten) && (!readsB i || s.opbWritten)

/-- R102, R103: the number of elements a count operand asks for; none where its signed reading is 0 or less. -/
def elementCount (b : Word) : Word := if signed32 b ≤ 0 then 0 else b

/-- R147: any word but 0 is true. -/
def truth (v : Word) : Bool := v != 0

/-- R147: a truth value as a word. -/
def boolWord (t : Bool) : Word := if t then 1 else 0

/-- R133: the sign of `signed32(v)` as a word: -1, 0 or 1. -/
def signWord (v : Word) : Word := if v.getLsbD 31 then 0xFFFFFFFF else if v = 0 then 0 else 1

/-- R125: `onesComplement(v)`. -/
def onesComplement (v : Word) : Word := ~~~v

/-- R126: `twosComplement(v)`. -/
def twosComplement (v : Word) : Word := adder (~~~v) 1

/-- R127: the magnitude output of `signedMagnitude(v)`. -/
def magnitude (v : Word) : Word := multiplier v (signWord v)

/-- R132: `conv(fmt, v)`; none where it raises UNSUPPORTED_FORMAT. -/
def conv (f : Fmt) (v : Word) : Option Word :=
  match f with
  | .rep .noSign          => some v
  | .rep .onesComplement  => some (onesComplement v)
  | .rep .signedMagnitude => some (magnitude v)
  | .rep .twosComplement  => some (twosComplement v)
  | .rep .excess | .rep .base | .rep .biased | .rep .zigZag | .rep .any | .rep .all | .other _ => none

end Sys2Proof.Machine
end

