-- ==== Sys2Proof/Machine/Ops.lean ====
section
/-! DEFINITION. The named operations over the buffer and the registers, and how a command ends (60_exceptions.md R233, R234,
R236). The block has no traps (R237): the error completion `State.raise` is its one way to report an error, and there is
nothing to return from (R238). -/

namespace Sys2Proof.Machine

/-- The canonical form of the buffer: indices strictly rising. An unlisted byte has no value, so no entry equals what an unlisted one reads as. -/
def Memory.wf : Memory → Bool
  | [] => true
  | [_] => true
  | c :: d :: rest => decide (c.1 < d.1) && Memory.wf (d :: rest)

/-- R63: the byte the host last wrote at index `i`; none where it has written none since reset. -/
def Memory.read (m : Memory) (i : Nat) : Option Byte :=
  match m with
  | [] => none
  | c :: rest => if c.1 = i then some c.2 else Memory.read rest i

/-- R64: `MemWrite(BUF, i, 1, v)`, keeping the canonical form. -/
def Memory.write (m : Memory) (i : Nat) (v : Byte) : Memory :=
  match m with
  | [] => [(i, v)]
  | c :: rest =>
    if i < c.1 then (i, v) :: c :: rest
    else if i = c.1 then (i, v) :: rest
    else c :: Memory.write rest i v

/-- R230: the number of an error code. -/
def ErrorCode.number : ErrorCode → BitVec 4
  | .unsupportedArchitecture => 1
  | .unsupportedFormat       => 2
  | .divideByZero            => 3
  | .indexOutOfRange         => 4
  | .illegalCommand          => 5
  | .logBaseOne              => 6

/-- R24: a command writes its primary result. -/
def State.writeRes (v : Word) (s : State) : State := { s with res := v, resWritten := true }

/-- R25: a command writes its secondary result. -/
def State.writeAux (v : Word) (s : State) : State := { s with aux := v, auxWritten := true }

/-- R236: success completion. ERR and ECODE are cleared, STICKY is kept, and no command is in flight. -/
def State.succeed (s : State) : State :=
  { s with
    status := { busy := false, done := true, err := false, ecode := 0, sticky := s.status.sticky }
    remaining := 0 }

/-- R233, R234: error completion with code `e`. It writes STATUS only; RES, AUX and every other register stay. -/
def State.raise (e : ErrorCode) (s : State) : State :=
  { s with
    status := { busy := false, done := true, err := true, ecode := e.number, sticky := true }
    remaining := 0 }

/-- R30, R121: the probe's result. -/
def State.setRepstat (r : RepStat) (s : State) : State := { s with repstat := r }

/-- R31, R32: the bit reader's cursor; ACTIVE says whether elements remain. -/
def State.setCursor (byte : Word) (bit : BitVec 3) (rev : Bool) (rem : Word) (s : State) : State :=
  { s with bsrbyte := byte, bsrrem := rem, bsrstat := { active := decide (rem ≠ 0), rev := rev, bit := bit } }

/-- One free value has been drawn (log 5). -/
def State.drawn (s : State) : State := { s with draws := s.draws + 1 }

/-- R63: the byte `MemRead(BUF, i, 1)` returns: what the host last wrote, or a free draw. -/
def State.bufByte (i : Nat) (s : State) : Byte :=
  match s.buf.read i with
  | some y => y
  | none   => Config.freeByte s.draws

/-- R63: the state after `MemRead(BUF, i, 1)`: the same, but for the count of draws where the byte was a draw. -/
def State.afterBufRead (i : Nat) (s : State) : State :=
  match s.buf.read i with
  | some _ => s
  | none   => s.drawn

/-- R88: a companion command has its effect only where the companion unit is present, and is an illegal command otherwise. `decode`
already refuses its word there (R86), so no run reaches the other case; it is here so that the meanings are right of
every state (DEDUCED, log 17). -/
def companion (s : State) (effect : Host.Outcome State Fault Refusal) : Host.Outcome State Fault Refusal :=
  if s.cfg.hasCompanion then effect else .next (s.raise .illegalCommand)

/-- R12: the cycles the command `w` on `a` and `b` keeps BUSY set, at least 1 (log 9). -/
def latencyOf (cfg : Config) (w a b : Word) : Nat :=
  match cfg.latencies.find? (fun e => e.word == w && e.a == a && e.b == b) with
  | some e => e.extra + 1
  | none   => 1

/-- R27: a command starts: the word is stored, the inputs are latched, BUSY is set and DONE cleared. -/
def State.issue (w : Word) (s : State) : State :=
  { s with
    cmd := w
    latch := { word := w, a := s.opa, b := s.opb }
    status := { s.status with busy := true, done := false }
    remaining := latencyOf s.cfg w s.opa s.opb }

/-- R86, R231: a word that is not legal completes at once (DEDUCED: in the step of its write, log 8) with ILLEGAL_COMMAND; CMD holds
it and nothing but STATUS changes besides. -/
def State.rejectWord (w : Word) (s : State) : State := { s with cmd := w }.raise .illegalCommand

/-- A host read returns the word `v`. -/
def State.answerWith (v : Word) (s : State) : State := { s with answer := some v }

/-- A host read returns an unspecified value: a free draw (R37, R281). -/
def State.answerFree (s : State) : State := { s with answer := some (Config.freeWord s.draws), draws := s.draws + 1 }

/-- R270: the reset input. Every piece of the block's state takes its reset value and a command in flight is discarded; the
parameters, the host's own pending events, the last answer and the count of draws are not the block's (log 15). -/
def State.assertReset (s : State) : State :=
  { State.resetOf s.cfg with host := s.host, answer := s.answer, draws := s.draws }

end Sys2Proof.Machine
end

