-- ==== Sys2Proof/Machine/Arith.lean ====
section
/-! DEFINITION. The arithmetic commands ADD, SUB, MUL, DIV, MOD, SQRT, LOG and LOG2 (43_adder.md to 47_logarithm.md). -/

namespace Sys2Proof.Machine

/-- R161: ADD. -/
def execAdd (s : State) : Host.Outcome State Fault Refusal :=
  .next (s.writeRes (adder s.latch.a s.latch.b)).succeed

/-- R163: SUB. -/
def execSub (s : State) : Host.Outcome State Fault Refusal :=
  .next (s.writeRes (subtractor s.latch.a s.latch.b)).succeed

/-- R171: MUL. -/
def execMul (s : State) : Host.Outcome State Fault Refusal :=
  .next (s.writeRes (multiplier s.latch.a s.latch.b)).succeed

/-- R181, R185: DIV. -/
def execDiv (s : State) : Host.Outcome State Fault Refusal :=
  if s.latch.b = 0 then .next (s.raise .divideByZero)
  else .next (s.writeRes (divCore s.latch.a s.latch.b).q).succeed

/-- R182, R185: MOD. -/
def execMod (s : State) : Host.Outcome State Fault Refusal :=
  if s.latch.b = 0 then .next (s.raise .divideByZero)
  else .next (s.writeRes (divCore s.latch.a s.latch.b).r).succeed

/-- R201: SQRT. -/
def execSqrt (s : State) : Host.Outcome State Fault Refusal :=
  .next (s.writeRes (sqrtCore s.latch.a)).succeed

/-- R210: the loop of the general-base logarithm, at most `k` divisions. -/
def logLoop : Nat → Word → Word → Word → Except ErrorCode Word
  | 0, _, _, c => .ok c
  | k + 1, n, base, c =>
    if base ≤ n then
      if base = 0 then .error .divideByZero
      else if base = 1 then .error .logBaseOne
      else logLoop k (divCore n base).q base (adder c 1)
    else .ok c

/-- R210, R214: `LogCore(n, base)`; at most 31 divisions. -/
def logCore (n base : Word) : Except ErrorCode Word := logLoop 31 n base 0

/-- R211: LOG. -/
def execLog (s : State) : Host.Outcome State Fault Refusal :=
  match logCore s.latch.a s.latch.b with
  | .ok c    => .next (s.writeRes c).succeed
  | .error e => .next (s.raise e)

/-- R213: LOG2. -/
def execLog2 (s : State) : Host.Outcome State Fault Refusal :=
  .next (s.writeRes (binLogCore s.latch.a)).succeed

end Sys2Proof.Machine
end

