-- ==== Sys2Proof/Machine/Logic.lean ====
section
/-! DEFINITION. The operand normalizer PREP and the bitwise logic commands (42_bitwise_logic.md). -/

namespace Sys2Proof.Machine

/-- R140: `prepare(left, right, format)` on the latched operands, then `k` on the prepared pair; UNSUPPORTED_FORMAT before any write. -/
def prepared (f : Fmt) (k : Word → Word → State → State) (s : State) : Host.Outcome State Fault Refusal :=
  match conv f s.latch.a, conv f s.latch.b with
  | some l, some r => .next (k l r s).succeed
  | _, _ => .next (s.raise .unsupportedFormat)

/-- R140: PREP. -/
def execPrep (f : Fmt) (s : State) : Host.Outcome State Fault Refusal :=
  prepared f (fun l r s => (s.writeRes l).writeAux r) s

/-- R141: AND. -/
def execAnd (f : Fmt) (s : State) : Host.Outcome State Fault Refusal :=
  companion s <| prepared f (fun l r s => s.writeRes (l &&& r)) s

/-- R142: OR. -/
def execOr (f : Fmt) (s : State) : Host.Outcome State Fault Refusal :=
  companion s <| prepared f (fun l r s => s.writeRes (l ||| r)) s

/-- R143: XOR. -/
def execXor (f : Fmt) (s : State) : Host.Outcome State Fault Refusal :=
  companion s <| prepared f (fun l r s => s.writeRes (l ^^^ r)) s

/-- R144: NAND. -/
def execNand (f : Fmt) (s : State) : Host.Outcome State Fault Refusal :=
  companion s <| prepared f (fun l r s => s.writeRes (~~~(l &&& r))) s

/-- R145: NOR. -/
def execNor (f : Fmt) (s : State) : Host.Outcome State Fault Refusal :=
  companion s <| prepared f (fun l r s => s.writeRes (~~~(l ||| r))) s

/-- R146: XXOR; the operands are prepared once. -/
def execXxor (f : Fmt) (s : State) : Host.Outcome State Fault Refusal :=
  companion s <| prepared f (fun l r s => s.writeRes ((~~~l &&& r) ||| (l &&& ~~~r))) s

/-- R147: the boolean-domain exclusive or. -/
def boolXor (bl br : Bool) : Bool := (!bl && br) || (bl && !br)

/-- R147: BXOR. -/
def execBxor (s : State) : Host.Outcome State Fault Refusal :=
  companion s <| .next (s.writeRes (boolWord (boolXor (truth s.latch.a) (truth s.latch.b)))).succeed

end Sys2Proof.Machine
end

