-- ==== Sys2Proof/Machine/Reader.lean ====
section
/-! DEFINITION. The bit-sequence reader's commands BSR_INIT and BSR_NEXT (40_bit_sequence_reader.md). -/

namespace Sys2Proof.Machine

/-- R101: the element at bit position `p` of the byte `y`. -/
def bitAt (y : Byte) (p : BitVec 3) (rev : Bool) : Bool :=
  if rev then y.getLsbD (7 - p.toNat) else y.getLsbD p.toNat

/-- R102, R103: BSR_INIT. It reads no buffer byte, so a start beyond the buffer is accepted. -/
def execBsrInit (bitoff : BitVec 3) (rev : Bool) (s : State) : Host.Outcome State Fault Refusal :=
  companion s <| .next (s.setCursor s.latch.a bitoff rev (elementCount s.latch.b)).succeed

/-- R106: an element is due beyond the buffer: the sequence ends, its position stays. -/
def endOutOfRange (s : State) : State :=
  (s.setCursor s.bsrbyte s.bsrstat.bit s.bsrstat.rev 0).raise .indexOutOfRange

/-- R105: the cursor moves past one element. -/
def advanceCursor (s : State) : State :=
  if s.bsrstat.bit = 7 then s.setCursor (s.bsrbyte + 1) 0 s.bsrstat.rev (s.bsrrem - 1)
  else s.setCursor s.bsrbyte (s.bsrstat.bit + 1) s.bsrstat.rev (s.bsrrem - 1)

/-- R105: an element of the byte `y` is produced: RES is its bit, AUX is 1 and the cursor moves past it. -/
def produceElement (y : Byte) (s : State) : State :=
  (((advanceCursor s).writeRes (boolWord (bitAt y s.bsrstat.bit s.bsrstat.rev))).writeAux 1).succeed

/-- R104, R105, R106: BSR_NEXT. -/
def execBsrNext (s : State) : Host.Outcome State Fault Refusal :=
  companion s <|
    if s.bsrrem = 0 then .next (s.writeAux 0).succeed
    else if s.cfg.bufLen.val ≤ s.bsrbyte.toNat then .next (endOutOfRange s)
    else .next (produceElement (s.bufByte s.bsrbyte.toNat) (s.afterBufRead s.bsrbyte.toNat))

end Sys2Proof.Machine
end

