-- ==== Sys2Proof/Machine/Representation.lean ====
section
/-! DEFINITION. The representation probe REPGET and the converters ONES, TWOS, SMAG, TC2SM and SM2TC (41_representation.md). -/

namespace Sys2Proof.Machine

/-- R122: NEG1, the host's 32-bit encoding of -1; HOST_REP = Other has none. -/
def neg1 : HostRep → Option Word
  | .twosComplement  => some 0xFFFFFFFF
  | .onesComplement  => some 0xFFFFFFFE
  | .signedMagnitude => some 0x80000001
  | .other           => none

/-- R122: `decode8(rep, y)`, the signed value of a byte pattern; HOST_REP = Other has none. -/
def decode8 (h : HostRep) (y : Byte) : Option Int :=
  match h with
  | .twosComplement  => some (if y.toNat < 0x80 then y.toNat else (y.toNat : Int) - 256)
  | .onesComplement  => some (if y.toNat < 0x80 then y.toNat else -(255 - (y.toNat : Int)))
  | .signedMagnitude => some (if y.toNat < 0x80 then y.toNat else -((y.toNat : Int) - 128))
  | .other           => none

/-- R123: the candidate the probe takes from the host's -1. -/
def probeCandidate (m1 : Word) : Representation :=
  if 1 &&& m1 = 0 then .onesComplement
  else if 3 &&& m1 = 1 then .signedMagnitude
  else .twosComplement

/-- R124: the independent verification of a candidate. -/
def probeVerify (h : HostRep) (m1 : Word) : Representation → Bool
  | .twosComplement  => decode8 h 0xFF == some (-1)
  | .onesComplement  => decode8 h 0xFE == some (-1)
  | .signedMagnitude => 3 &&& m1 == 1
  | .noSign | .excess | .base | .biased | .zigZag | .any | .all => false

/-- R123: the probe; none where it fails. -/
def probe (h : HostRep) : Option Representation :=
  match neg1 h with
  | none => none
  | some m1 =>
    let cand := probeCandidate m1
    if probeVerify h m1 cand then some cand else none

/-- R121: the first REPGET runs the probe and latches what it found. -/
def runProbe (s : State) : State :=
  match probe s.cfg.hostRep with
  | none   => (s.setRepstat { s.repstat with fatal := true }).raise .unsupportedArchitecture
  | some r => ((s.setRepstat { s.repstat with valid := true, rep := r.code }).writeRes (r.code.setWidth 32)).succeed

/-- R121: REPGET. -/
def execRepget (s : State) : Host.Outcome State Fault Refusal :=
  companion s <|
    if s.repstat.valid then .next (s.writeRes (s.repstat.rep.setWidth 32)).succeed
    else if s.repstat.fatal then .next (s.raise .unsupportedArchitecture)
    else .next (runProbe s)

/-- R125: ONES. -/
def execOnes (s : State) : Host.Outcome State Fault Refusal :=
  .next (s.writeRes (onesComplement s.latch.a)).succeed

/-- R126: TWOS. -/
def execTwos (s : State) : Host.Outcome State Fault Refusal :=
  .next (s.writeRes (twosComplement s.latch.a)).succeed

/-- R127: SMAG. -/
def execSmag (s : State) : Host.Outcome State Fault Refusal :=
  .next ((s.writeRes (magnitude s.latch.a)).writeAux (signWord s.latch.a)).succeed

/-- R128: signBitMask. -/
def signBitMask : Word := 0x80000000

/-- R128: the magnitude mask. -/
def magnitudeMask : Word := 0x7FFFFFFF

/-- R129: `twosComplementToSignedMagnitude(v)`. -/
def tcToSm (v : Word) : Word :=
  let s := v.sshiftRight 31
  (adder v s ^^^ s) ||| (v &&& signBitMask)

/-- R129: TC2SM. -/
def execTc2sm (s : State) : Host.Outcome State Fault Refusal :=
  .next (s.writeRes (tcToSm s.latch.a)).succeed

/-- R130: `signedMagnitudeToTwosComplement(v)`, its formula applied only where the sign bit is set (90_conflicts.md C2). -/
def smToTc (v : Word) : Word :=
  if v.getLsbD 31 then adder (~~~(v &&& magnitudeMask)) 1 ||| (v &&& signBitMask) else v

/-- R130: SM2TC. -/
def execSm2tc (s : State) : Host.Outcome State Fault Refusal :=
  .next (s.writeRes (smToTc s.latch.a)).succeed

end Sys2Proof.Machine
end

