-- ==== Sys2Proof/Machine/Dispatch.lean ====
section
/-! DEFINITION. exec: the completion of a command on its latched operands (10_state.md R27), one arm per command of
30_encoding.md R83, each one call of its meaning. -/

namespace Sys2Proof.Machine

def exec (i : Instr) (s : State) : Host.Outcome State Fault Refusal :=
  match i with
  | .bsrInit bitoff rev => Sys2Proof.Machine.execBsrInit bitoff rev s
  | .bsrNext => Sys2Proof.Machine.execBsrNext s
  | .repget => Sys2Proof.Machine.execRepget s
  | .ones => Sys2Proof.Machine.execOnes s
  | .twos => Sys2Proof.Machine.execTwos s
  | .smag => Sys2Proof.Machine.execSmag s
  | .tc2sm => Sys2Proof.Machine.execTc2sm s
  | .sm2tc => Sys2Proof.Machine.execSm2tc s
  | .prep fmt => Sys2Proof.Machine.execPrep fmt s
  | .and fmt => Sys2Proof.Machine.execAnd fmt s
  | .or fmt => Sys2Proof.Machine.execOr fmt s
  | .xor fmt => Sys2Proof.Machine.execXor fmt s
  | .nand fmt => Sys2Proof.Machine.execNand fmt s
  | .nor fmt => Sys2Proof.Machine.execNor fmt s
  | .xxor fmt => Sys2Proof.Machine.execXxor fmt s
  | .bxor => Sys2Proof.Machine.execBxor s
  | .add => Sys2Proof.Machine.execAdd s
  | .sub => Sys2Proof.Machine.execSub s
  | .mul => Sys2Proof.Machine.execMul s
  | .div => Sys2Proof.Machine.execDiv s
  | .mod => Sys2Proof.Machine.execMod s
  | .sqrt => Sys2Proof.Machine.execSqrt s
  | .log => Sys2Proof.Machine.execLog s
  | .log2 => Sys2Proof.Machine.execLog2 s

end Sys2Proof.Machine
end

