-- ==== Sys2Proof/Machine/Clock.lean ====
section
/-! DEFINITION. One cycle of the block's clock: the command in flight comes one cycle nearer to its completion, and in its last cycle
completes (10_state.md R27). -/

namespace Sys2Proof.Machine

/-- R27, R87: the command in flight completes: what its latched word says is executed on its latched operands. -/
def completeCommand (s : State) : Host.Outcome State Fault Refusal :=
  match decode s.cfg.hasCompanion s.latch.word with
  | .ok i    => exec i s
  | .error _ => .next (s.raise .illegalCommand)

/-- R12, R27: one cycle. An idle block holds all its state (R247). -/
def clock (s : State) : Host.Outcome State Fault Refusal :=
  match s.remaining with
  | 0     => .next s
  | 1     => completeCommand s
  | n + 2 => .next { s with remaining := n + 1 }

/-- The state in which the command word `w` has been started on the operands OPA and OPB hold and is in its last cycle, and the host
asks for nothing meanwhile: the very next step completes the command (log 6). -/
def State.inLastCycle (w : Word) (s : State) : State :=
  { s with
    cmd := w
    latch := { word := w, a := s.opa, b := s.opb }
    status := { s.status with busy := true, done := false }
    remaining := 1
    host := [] }

end Sys2Proof.Machine
end

