-- ==== Sys2Proof/Machine/Flags.lean ====
section
/-! DEFINITION. The status registers as the host reads them: the fields at their bits, every reserved bit 0 (10_state.md R26, R30,
R31). The block has no carry, overflow, zero or sign flag (R35). -/

namespace Sys2Proof.Machine

/-- R26: STATUS as a word. -/
def Status.word (t : Status) : Word :=
  (0#23 ++ (BitVec.ofBool t.sticky ++ (t.ecode ++ (0#1 ++ (BitVec.ofBool t.err ++
    (BitVec.ofBool t.done ++ BitVec.ofBool t.busy))))) : BitVec (23 + (1 + (4 + (1 + (1 + (1 + 1)))))))

/-- R30: REPSTAT as a word. -/
def RepStat.word (t : RepStat) : Word :=
  (0#16 ++ (t.rep ++ (0#6 ++ (BitVec.ofBool t.fatal ++ BitVec.ofBool t.valid))) : BitVec (16 + (8 + (6 + (1 + 1)))))

/-- R31: BSRSTAT as a word. -/
def BsrStat.word (t : BsrStat) : Word :=
  (0#25 ++ (t.bit ++ (0#2 ++ (BitVec.ofBool t.rev ++ BitVec.ofBool t.active))) : BitVec (25 + (3 + (2 + (1 + 1)))))

end Sys2Proof.Machine
end

