-- ==== Sys2Proof/Machine/HostPort.lean ====
section
/-! DEFINITION. The host's accesses to the block's window (10_state.md R20, R39; 20_memory.md R60 to R68; 70_reset_and_hazards.md
R280, R281), and how a command starts (R27). -/

namespace Sys2Proof.Machine

/-- R20: a register's offset from BASE. -/
def Reg.offset : Reg → Nat
  | .opa     => 0x000
  | .opb     => 0x004
  | .cmd     => 0x008
  | .res     => 0x00C
  | .aux     => 0x010
  | .status  => 0x014
  | .repstat => 0x018
  | .bsrstat => 0x01C
  | .bsrbyte => 0x020
  | .bsrrem  => 0x024

/-- R20: the register at an offset; none where the offset is reserved. -/
def Reg.ofOffset : Nat → Option Reg
  | 0x000 => some .opa
  | 0x004 => some .opb
  | 0x008 => some .cmd
  | 0x00C => some .res
  | 0x010 => some .aux
  | 0x014 => some .status
  | 0x018 => some .repstat
  | 0x01C => some .bsrstat
  | 0x020 => some .bsrbyte
  | 0x024 => some .bsrrem
  | _ => none

/-- What an address of the host's address space is to the block (R60 to R62, R69). -/
inductive Target where
  /-- Offsets 0x000 to 0xFFF that are no multiple of 4. -/
  | misaligned
  /-- A register of R20. -/
  | register (r : Reg)
  /-- A reserved word, offsets 0x028 to 0xFFF. -/
  | reserved
  /-- Byte `i` of the BUF window, offset 0x1000 + i. -/
  | bufWindow (i : Nat)
  /-- Not in the window. -/
  | outside
  deriving DecidableEq, Repr

/-- R60: the offset of a host address from BASE. -/
def offsetOf (cfg : Config) (addr : Word) : Nat := (addr - cfg.base).toNat

/-- R60, R61, R62, R69: the address map. -/
def target (cfg : Config) (addr : Word) : Target :=
  let off := offsetOf cfg addr
  if off < 0x1000 then
    if off % 4 ≠ 0 then .misaligned
    else match Reg.ofOffset off with
      | some r => .register r
      | none   => .reserved
  else if off < 0x101000 then .bufWindow (off - 0x1000)
  else .outside

/-- R34, R62: a BUF index that has a byte behind it. -/
def hasBufByte (i : Nat) (s : State) : Bool := s.cfg.hasCompanion && decide (i < s.cfg.bufLen.val)

/-- R33, R281: a companion register reads 0 without the companion unit (DEDUCED: also while BUSY, log 12), a free draw while a command runs, and `v` otherwise. -/
def readCompanion (v : Word) (s : State) : State :=
  if !s.cfg.hasCompanion then s.answerWith 0
  else if s.status.busy then s.answerFree
  else s.answerWith v

/-- R37, R281: a result register reads as a free draw before a command has written it and while a command runs. -/
def readResult (written : Bool) (v : Word) (s : State) : State :=
  if s.status.busy || !written then s.answerFree else s.answerWith v

/-- R36, R37: an operand register reads as a free draw before the host has written it, and otherwise as itself (DEDUCED: also while
BUSY, log 14). -/
def readOperand (written : Bool) (v : Word) (s : State) : State :=
  if written then s.answerWith v else s.answerFree

/-- R20, R68: a host read of a register changes no register. -/
def readRegister (r : Reg) (s : State) : State :=
  match r with
  | .opa     => readOperand s.opaWritten s.opa s
  | .opb     => readOperand s.opbWritten s.opb s
  | .cmd     => s.answerWith s.cmd
  | .res     => readResult s.resWritten s.res s
  | .aux     => readResult s.auxWritten s.aux s
  | .status  => s.answerWith s.status.word
  | .repstat => readCompanion s.repstat.word s
  | .bsrstat => readCompanion s.bsrstat.word s
  | .bsrbyte => readCompanion s.bsrbyte s
  | .bsrrem  => readCompanion s.bsrrem s

/-- R62, R63: a host read of a byte of the BUF window. -/
def readBufWindow (i : Nat) (s : State) : State :=
  if hasBufByte i s then (s.afterBufRead i).answerWith ((s.bufByte i).setWidth 32) else s.answerWith 0

/-- R27, R36, R86, R280 item 3: a host write of CMD while the block is idle. An illegal word completes at once; a legal one starts. -/
def startCommand (w : Word) (s : State) : Host.Outcome State Fault Refusal :=
  match decode s.cfg.hasCompanion w with
  | .error _ => .next (s.rejectWord w)
  | .ok i    => if operandsWritten i s then .next (s.issue w) else .fault .unwrittenOperand

/-- R21, R22, R23, R39: a host write of a register. -/
def writeRegister (r : Reg) (v : Word) (s : State) : Host.Outcome State Fault Refusal :=
  match r with
  | .opa => .next { s with opa := v, opaWritten := true }
  | .opb => .next { s with opb := v, opbWritten := true }
  | .cmd => if s.status.busy then .fault .cmdWriteWhileBusy else startCommand v s
  | .res | .aux | .status | .repstat | .bsrstat | .bsrbyte | .bsrrem => .next s

/-- R62, R64, R280 item 2: a host write of a byte of the BUF window. One to a byte that BUF lacks is ignored (DEDUCED: also while
BUSY, log 13). -/
def writeBufWindow (i : Nat) (v : Byte) (s : State) : Host.Outcome State Fault Refusal :=
  if hasBufByte i s then
    if s.status.busy then .fault .bufWriteWhileBusy else .next { s with buf := s.buf.write i v }
  else .next s

/-- A host read of `bytes` bytes at a target (R61, R62). -/
def hostRead (t : Target) (bytes : Nat) (s : State) : Host.Outcome State Fault Refusal :=
  match t with
  | .misaligned  => .fault .registerAccessForm
  | .register r  => if bytes = 4 then .next (readRegister r s) else .fault .registerAccessForm
  | .reserved    => if bytes = 4 then .next (s.answerWith 0) else .fault .registerAccessForm
  | .bufWindow i => if bytes = 1 then .next (readBufWindow i s) else .fault .bufAccessForm
  | .outside     => .fault .outsideWindow

/-- A host write of `bytes` bytes at a target (R61, R62). -/
def hostWrite (t : Target) (bytes data : Nat) (s : State) : Host.Outcome State Fault Refusal :=
  match t with
  | .misaligned  => .fault .registerAccessForm
  | .register r  => if bytes = 4 then writeRegister r (BitVec.ofNat 32 data) s else .fault .registerAccessForm
  | .reserved    => if bytes = 4 then .next s else .fault .registerAccessForm
  | .bufWindow i => if bytes = 1 then writeBufWindow i (BitVec.ofNat 8 data) s else .fault .bufAccessForm
  | .outside     => .fault .outsideWindow

/-- R76, R280 item 5: the port is inside another agent's sequence. -/
def interleaves (a : Access) (s : State) : Bool :=
  match s.owner with
  | none   => false
  | some g => g != a.agent

/-- R71, R76: the block performs one host access, whole. Of several violations the first in the order of these definitions is named
(log 20). -/
def hostAccess (a : Access) (s : State) : Host.Outcome State Fault Refusal :=
  if interleaves a s then .fault .interleavedAgents
  else
    let s1 := { s with owner := if a.last then none else some a.agent }
    match a.transfer with
    | .read bytes       => hostRead (target s.cfg a.addr) bytes s1
    | .write bytes data => hostWrite (target s.cfg a.addr) bytes data s1

/-- R90: `wr <reg>, x` by agent 0, inside its sequence. -/
def wr (cfg : Config) (r : Reg) (x : Word) : HostEvent :=
  .access { agent := 0, last := false, addr := cfg.base + BitVec.ofNat 32 r.offset, transfer := .write 4 x.toNat }

/-- R90: `cmd <command>`. -/
def startOf (cfg : Config) (i : Instr) : HostEvent := wr cfg .cmd (encode i)

/-- R90: `rd hN, <reg>`. -/
def rd (cfg : Config) (r : Reg) : HostEvent :=
  .access { agent := 0, last := false, addr := cfg.base + BitVec.ofNat 32 r.offset, transfer := .read 4 }

/-- R90: `wrb BUF[i], x`. -/
def wrb (cfg : Config) (i : Nat) (x : Byte) : HostEvent :=
  .access { agent := 0, last := false, addr := cfg.base + BitVec.ofNat 32 (0x1000 + i), transfer := .write 1 x.toNat }

/-- R90: `rdb hN, BUF[i]`. -/
def rdb (cfg : Config) (i : Nat) : HostEvent :=
  .access { agent := 0, last := false, addr := cfg.base + BitVec.ofNat 32 (0x1000 + i), transfer := .read 1 }

/-- R90: `wait`, for a command of `n` cycles: the cycles pass and the host's read of STATUS shows BUSY = 0. -/
def waitFor (cfg : Config) (n : Nat) : List HostEvent := List.replicate n .cycle ++ [rd cfg .status]

/-- R91: `op1 M, x`. -/
def op1 (cfg : Config) (i : Instr) (x : Word) (n : Nat) : List HostEvent :=
  wr cfg .opa x :: startOf cfg i :: waitFor cfg n

/-- R91: `op2 M, x, y`. -/
def op2 (cfg : Config) (i : Instr) (x y : Word) (n : Nat) : List HostEvent :=
  wr cfg .opa x :: wr cfg .opb y :: startOf cfg i :: waitFor cfg n

end Sys2Proof.Machine
end

