-- ==== Sys2Proof/Machine/Step.lean ====
section
/-! DEFINITION. One step of the machine: the oldest pending event of the host takes effect, or, where none is pending, a cycle
passes (20_memory.md R71; log 6). -/

namespace Sys2Proof.Machine

/-- One step. -/
def step (s : State) : Host.Outcome State Fault Refusal :=
  match s.host with
  | []                 => clock s
  | .cycle :: rest     => clock { s with host := rest }
  | .reset :: rest     => .next { s with host := rest }.assertReset
  | .access a :: rest  => hostAccess a { s with host := rest }

/-- `s` with the command whose bits are `w` in flight and in its last cycle, which is where the block finds the next command to complete. The
block fetches nothing (10_state.md R29); this stands for the host's CMD write and the cycles after it (log 6). -/
def State.withFetchWord (s : State) (nbits w : Nat) : State :=
  s.inLastCycle (BitVec.ofNat 32 (w % 2 ^ nbits))

end Sys2Proof.Machine
end

