-- ==== Sys2Proof/Safety.lean ====
section
/-! DEFINITION. What counts as a safe run (no host contract violation, 70_reset_and_hazards.md R280) and the invariant of the block's
state, part by part. -/

namespace Sys2Proof.Machine

/-- `k` steps from `s`, none of which is a host contract violation: the state they end in. -/
def runSafely : Nat → State → Option State
  | 0, s => some s
  | k + 1, s =>
    match step s with
    | .next t => runSafely k t
    | .fault _ => none
    | .refused _ => none

/-- R34, R62: the buffer is in its canonical form and lists only indices below BUF_LEN. -/
abbrev State.BufOk (s : State) : Prop :=
  Memory.wf s.buf = true ∧ ∀ c ∈ s.buf, c.1 < s.cfg.bufLen.val

/-- R26, R27, R230, R233, R236: STATUS: BUSY exactly while a command is in flight and never with DONE; an error code exactly with ERR, from 1 to 6,
and never without STICKY; all clear, and CMD 0, until the first command starts. -/
abbrev State.StatusOk (s : State) : Prop :=
  s.status.busy = decide (s.remaining ≠ 0) ∧
  (s.status.busy = true → s.status.done = false) ∧
  (s.status.err = false → s.status.ecode = 0) ∧
  (s.status.err = true → s.status.sticky = true ∧ 1 ≤ s.status.ecode.toNat ∧ s.status.ecode.toNat ≤ 6) ∧
  (s.status.busy = false → s.status.done = false → s.status.err = false ∧ s.status.sticky = false ∧ s.cmd = 0)

/-- R30, R121, R123: REPSTAT: never VALID and FATAL; REP is 0 until VALID and then the probe's answer; FATAL only where the probe fails. -/
abbrev State.RepstatOk (s : State) : Prop :=
  (s.repstat.valid = true → s.repstat.fatal = false) ∧
  (s.repstat.valid = false → s.repstat.rep = 0) ∧
  (s.repstat.valid = true → (probe s.cfg.hostRep).map Representation.code = some s.repstat.rep) ∧
  (s.repstat.fatal = true → probe s.cfg.hostRep = none)

/-- R31, R103: ACTIVE says whether elements remain, and at most 2^31-1 do. -/
abbrev State.CursorOk (s : State) : Prop :=
  s.bsrstat.active = decide (s.bsrrem ≠ 0) ∧ s.bsrrem.toNat < 2 ^ 31

/-- R23, R27, R36, R86: the command in flight is the legal word CMD holds, and the host had written the operands it reads. -/
abbrev State.InFlightOk (s : State) : Prop :=
  s.status.busy = true →
    s.latch.word = s.cmd ∧
    (match decode s.cfg.hasCompanion s.latch.word with
      | .ok i => operandsWritten i s
      | .error _ => false) = true

/-- R33: without the companion unit the companion state stays at its reset value. -/
abbrev State.CompanionOk (s : State) : Prop :=
  s.cfg.hasCompanion = false →
    s.repstat = { valid := false, fatal := false, rep := 0 } ∧
    s.bsrstat = { active := false, rev := false, bit := 0 } ∧
    s.bsrbyte = 0 ∧ s.bsrrem = 0 ∧ s.buf = []

/-- The invariant of the block's state. -/
abbrev State.Inv (s : State) : Prop :=
  s.BufOk ∧ s.StatusOk ∧ s.RepstatOk ∧ s.CursorOk ∧ s.InFlightOk ∧ s.CompanionOk

end Sys2Proof.Machine
end

