-- ==== Sys2Proof/Certificates/Slice0/Obligations.lean ====
section
/-! DEFINITION. The statements for the provers, each from the numbered rules of spec/, and the few words they are written in. -/

namespace Sys2Proof.Claims

open Sys2Proof.Machine

/-- R236: STATUS after a success completion. -/
def okStatus (s : State) : Status :=
  { busy := false, done := true, err := false, ecode := 0, sticky := s.status.sticky }

/-- R233: STATUS after an error completion with this ECODE. -/
def errStatus (code : BitVec 4) : Status :=
  { busy := false, done := true, err := true, ecode := code, sticky := true }

/-- `s` after a command that succeeds and writes `v` to RES: nothing else is different. -/
def completes (s : State) (v : Word) : State :=
  { s with res := v, resWritten := true, status := okStatus s, remaining := 0 }

/-- `s` after a command that ends with this ECODE: nothing but STATUS is different. -/
def failsWith (s : State) (code : BitVec 4) : State :=
  { s with status := errStatus code, remaining := 0 }

/-- R132 by FMT code, in the word's own arithmetic. -/
def convOf (code : BitVec 8) (v : Word) : Option Word :=
  if code = 0x00 then some v
  else if code = 0x01 then some (~~~v)
  else if code = 0x02 then some (if v.msb then -v else v)
  else if code = 0x04 then some (-v)
  else none

/-- `s` after a format-taking command whose result on the converted operands is `op`; UNSUPPORTED_FORMAT is ECODE 2. -/
def afterFmt (s : State) (f : Fmt) (op : Word → Word → Word) : State :=
  match convOf f.code s.latch.a, convOf f.code s.latch.b with
  | some l, some r => completes s (op l r)
  | _, _ => failsWith s 2

/-- R128: the signed value a sign-magnitude word stands for. -/
def signMagnitudeValue (v : Word) : Int :=
  if v.msb then -((v &&& 0x7FFFFFFF).toNat : Int) else v.toNat

/-- `s` with `v` latched as operand a. -/
def withA (s : State) (v : Word) : State := { s with latch := { s.latch with a := v } }

/-- R102, R103: the count of a sequence: none for 0 or a set bit 31. -/
def countOf (b : Word) : Word := if b = 0 ∨ b.msb = true then 0 else b

/-- R101: the element at position `p` of a byte. -/
def bitOf (y : Byte) (p : Nat) (rev : Bool) : Bool := y.getLsbD (if rev then 7 - p else p)

/-- R105: `s` after BSR_NEXT produced an element from the byte `y`. -/
def producesFrom (s : State) (y : Byte) : State :=
  { s with
    res := if bitOf y s.bsrstat.bit.toNat s.bsrstat.rev then 1 else 0
    resWritten := true
    aux := 1
    auxWritten := true
    bsrbyte := if s.bsrstat.bit = 7 then s.bsrbyte + 1 else s.bsrbyte
    bsrrem := s.bsrrem - 1
    bsrstat := { active := decide (s.bsrrem - 1 ≠ 0), rev := s.bsrstat.rev, bit := s.bsrstat.bit + 1 }
    status := okStatus s
    remaining := 0 }

/-- R109: the sequence of `n` elements from byte `y`, bit `p` of a buffer of `len` bytes; `none` is IndexOutOfRange. -/
def bitSeq (buf : Nat → Byte) (len : Nat) (rev : Bool) : Nat → Nat → Nat → List (Option Bool)
  | 0, _, _ => []
  | n + 1, y, p =>
    if len ≤ y then [none]
    else some (bitOf (buf y) p rev) :: bitSeq buf len rev n (if p = 7 then y + 1 else y) ((p + 1) % 8)

/-- The state an outcome goes on in. -/
def nextOf : Host.Outcome State Fault Refusal → Option State
  | .next t => some t
  | .fault _ => none
  | .refused _ => none

/-- `k` commands BSR_NEXT after an outcome. -/
def afterNexts : Nat → Host.Outcome State Fault Refusal → Option State
  | 0, o => nextOf o
  | k + 1, o => (afterNexts k o).bind fun t => nextOf (exec .bsrNext t)

/-- The oldest pending event is the access `a`, by an agent the port is free for, of the transfer `tr` at this offset of the window. -/
def Pending (s : State) (a : Access) (rest : List HostEvent) (off : Nat) (tr : Transfer) : Prop :=
  s.host = .access a :: rest ∧ (s.owner = none ∨ s.owner = some a.agent) ∧
  a.addr = s.cfg.base + BitVec.ofNat 32 off ∧ a.transfer = tr ∧ off < 0x101000

/-- `s` after the access `a` was taken from the pending events; the port stays with its agent until the agent's last access. -/
def taken (s : State) (a : Access) (rest : List HostEvent) : State :=
  { s with host := rest, owner := if a.last then none else some a.agent }

/-- `s` after the legal word `w` was written to CMD, `n` cycles before its completion (R27). -/
def started (s : State) (w : Word) (n : Nat) : State :=
  { s with
    cmd := w
    latch := { word := w, a := s.opa, b := s.opb }
    status := { s.status with busy := true, done := false }
    remaining := n }

/-- R20, R33, R37, R281: what a host read of the register at this offset returns; none where it is unspecified. -/
def readable (s : State) (off : Nat) : Option Word :=
  let result (written : Bool) (v : Word) := if s.status.busy = false ∧ written = true then some v else none
  let comp (v : Word) := if s.cfg.hasCompanion = false then some 0 else if s.status.busy = true then none else some v
  if off = 0x000 then (if s.opaWritten then some s.opa else none)
  else if off = 0x004 then (if s.opbWritten then some s.opb else none)
  else if off = 0x008 then some s.cmd
  else if off = 0x00C then result s.resWritten s.res
  else if off = 0x010 then result s.auxWritten s.aux
  else if off = 0x014 then some s.status.word
  else if off = 0x018 then comp s.repstat.word
  else if off = 0x01C then comp s.bsrstat.word
  else if off = 0x020 then comp s.bsrbyte
  else if off = 0x024 then comp s.bsrrem
  else some 0

/-- R83, R88: the core OP values. -/
def coreOps : List (BitVec 8) := [0x11, 0x12, 0x13, 0x14, 0x15, 0x20, 0x30, 0x31, 0x32, 0x33, 0x34, 0x35, 0x36, 0x37]

/-- R83, R88: the companion OP values. -/
def companionOps : List (BitVec 8) := [0x01, 0x02, 0x10, 0x21, 0x22, 0x23, 0x24, 0x25, 0x26, 0x27]

/-- R86 condition 4: the OP values that take FMT. -/
def fmtOps : List (BitVec 8) := [0x20, 0x21, 0x22, 0x23, 0x24, 0x25, 0x26]

/-- R86: the five conditions of a legal word. -/
def Legal (hasCompanion : Bool) (w : Word) : Prop :=
  let op := w.extractLsb' 0 8
  (op ∈ coreOps ∨ op ∈ companionOps) ∧
  (op ∈ coreOps ∨ hasCompanion = true) ∧
  w.extractLsb' 20 12 = 0 ∧
  (w.extractLsb' 8 8 = 0 ∨ op ∈ fmtOps) ∧
  (w.extractLsb' 16 4 = 0 ∨ op = 0x01)

/-- R83: the commands that read OPA. -/
def needsOpa (i : Instr) : Prop := i ≠ .bsrNext ∧ i ≠ .repget

/-- R83: the commands that read OPB. -/
def needsOpb (i : Instr) : Prop :=
  i ∉ ([.bsrNext, .repget, .ones, .twos, .smag, .tc2sm, .sm2tc, .sqrt, .log2] : List Instr)

end Sys2Proof.Claims

open Sys2Proof Sys2Proof.Machine Sys2Proof.Claims

/-! ## Reset, the invariant, the step -/

/-- 10_state.md R37: the reset values; an UNSPECIFIED register is unwritten, and no buffer byte has a value. -/
def Obligations.ResetLeavesStatedValues : Prop :=
  ∀ cfg : Config, let s := State.resetOf cfg
    s.cmd = 0 ∧ s.status.word = 0 ∧ s.repstat.word = 0 ∧ s.bsrstat.word = 0 ∧ s.bsrbyte = 0 ∧ s.bsrrem = 0 ∧
    s.opaWritten = false ∧ s.opbWritten = false ∧ s.resWritten = false ∧ s.auxWritten = false ∧
    (∀ i, s.buf.read i = none) ∧ s.remaining = 0

/-- The invariant of Safety.lean holds after reset, for every value of the parameters. -/
def Obligations.InvariantHoldsAfterReset : Prop := ∀ cfg : Config, (State.resetOf cfg).Inv

/-- Every step keeps the invariant of Safety.lean (10_state.md R26, R27, R30, R31, R33, R34, R36). -/
def Obligations.EveryStepKeepsInvariant : Prop := ∀ s t : State, s.Inv → step s = .next t → t.Inv

/-- 70_reset_and_hazards.md R270: the reset input sets every piece of the block's state to its reset value and discards a command in
flight; that what is not the block's (pending events, the last answer, the count of draws) stays is the model's choice (log 15). -/
def Obligations.ResetInputRestoresResetState : Prop :=
  ∀ (s : State) (rest : List HostEvent), s.host = .reset :: rest →
    step s = .next { State.resetOf s.cfg with host := rest, answer := s.answer, draws := s.draws }

/-- A step in the last cycle of a command executes the command its latched word decodes to, on the latched operands; only the
cycle event is taken from the host's events (10_state.md R27, 30_encoding.md R87). That a step with nothing pending is a cycle, and
that a cycle is an event of the host's list, are the model's choice (log 6). -/
def Obligations.StepRunsDecodedCommand : Prop :=
  ∀ (s : State) (i : Instr), s.remaining = 1 → decode s.cfg.hasCompanion s.latch.word = .ok i →
    (s.host = [] → step s = exec i s) ∧
    (∀ rest, s.host = .cycle :: rest → step s = exec i { s with host := rest })

/-- 10_state.md R12, R27: a legal command written to an idle block keeps BUSY for its latency with every result as it was, and then
is executed on the operands latched when it was written, where nothing but the cycles of that latency follows the write (what a host access
while BUSY does stands in HostAccessLeavesRunningCommand). That cycles are events of the host's list and that the latency is looked
up in a table are the model's choice (logs 6, 9). -/
def Obligations.CommandRunsAfterItsLatency : Prop :=
  ∀ (s : State) (a : Access) (rest : List HostEvent) (w : Word) (i : Instr),
    Pending s a (List.replicate (latencyOf s.cfg w s.opa s.opb) .cycle ++ rest) 0x008 (.write 4 w.toNat) →
    s.status.busy = false → decode s.cfg.hasCompanion w = .ok i → operandsWritten i s = true →
    runSafely (latencyOf s.cfg w s.opa s.opb + 1) s = nextOf (exec i (started (taken s a rest) w 1)) ∧
    ∀ k, 1 ≤ k → k ≤ latencyOf s.cfg w s.opa s.opb →
      runSafely k s =
        some (started (taken s a (List.replicate (latencyOf s.cfg w s.opa s.opb + 1 - k) .cycle ++ rest)) w
          (latencyOf s.cfg w s.opa s.opb + 1 - k))

/-- 10_state.md R27 items 1 to 3: a legal command written to an idle block, with its operands written, is stored in CMD and latched with
OPA and OPB, sets BUSY and clears DONE, for the latency of the command, whatever is pending after it. That the latency is looked up in a
table is the model's choice (log 9). -/
def Obligations.CmdWriteStartsCommand : Prop :=
  ∀ (s : State) (a : Access) (rest : List HostEvent) (w : Word) (i : Instr),
    Pending s a rest 0x008 (.write 4 w.toNat) → s.status.busy = false → decode s.cfg.hasCompanion w = .ok i → operandsWritten i s = true →
    1 ≤ latencyOf s.cfg w s.opa s.opb ∧
    step s = .next (started (taken s a rest) w (latencyOf s.cfg w s.opa s.opb))

/-- 00_scope.md R12, 10_state.md R27, 60_exceptions.md R247: a cycle that is not a command's last only counts down its latency, and a
cycle of an idle block changes nothing. That cycles are events of the host's list, and that a step with nothing pending is one, is the
model's choice (log 6). -/
def Obligations.OtherCyclesOnlyCountDown : Prop :=
  ∀ (s : State) (rest : List HostEvent),
    (∀ n, s.remaining = n + 2 →
      (s.host = [] → step s = .next { s with remaining := n + 1 }) ∧
      (s.host = .cycle :: rest → step s = .next { s with host := rest, remaining := n + 1 })) ∧
    (s.remaining = 0 →
      (s.host = [] → step s = .next s) ∧ (s.host = .cycle :: rest → step s = .next { s with host := rest }))

/-- 10_state.md R27 item 2, 70_reset_and_hazards.md R281: no host access that is no violation changes a running command: what it latched,
its remaining latency, CMD, STATUS, BUF and every result stay, and a write of OPA or OPB while BUSY stores its word. That the word
a read returns stands in `answer` is the model's choice (log 16). -/
def Obligations.HostAccessLeavesRunningCommand : Prop :=
  (∀ (s t : State) (a : Access) (rest : List HostEvent),
    s.host = .access a :: rest → s.status.busy = true → step s = .next t →
    t.latch = s.latch ∧ t.remaining = s.remaining ∧ t.cmd = s.cmd ∧ t.status = s.status ∧ t.buf = s.buf ∧ t.res = s.res ∧
    t.aux = s.aux ∧ t.repstat = s.repstat ∧ t.bsrstat = s.bsrstat ∧ t.bsrbyte = s.bsrbyte ∧ t.bsrrem = s.bsrrem) ∧
  (∀ (s : State) (a : Access) (rest : List HostEvent) (v : Word), s.status.busy = true →
    (Pending s a rest 0x000 (.write 4 v.toNat) → ∃ t, step s = .next t ∧ t.opa = v ∧ t.latch = s.latch ∧ t.remaining = s.remaining) ∧
    (Pending s a rest 0x004 (.write 4 v.toNat) → ∃ t, step s = .next t ∧ t.opb = v ∧ t.latch = s.latch ∧ t.remaining = s.remaining) ∧
    (Pending s a rest 0x014 (.read 4) → ∃ t, step s = .next t ∧ t.answer = some s.status.word ∧ t.latch = s.latch ∧
      t.remaining = s.remaining))

/-- 70_reset_and_hazards.md R282: whatever two latencies a command has, it ends in the same state after each, but for the
latency table itself. That cycles are events of the host's list and that the latency is looked up in a table are the model's choice
(logs 6, 9). -/
def Obligations.LatencyHasNoEffectOnResults : Prop :=
  ∀ (s : State) (a : Access) (w : Word) (i : Instr) (l1 l2 : List LatencyEntry),
    let at' (l : List LatencyEntry) : State :=
      { s with
        cfg := { s.cfg with latencies := l }
        host := .access a :: List.replicate (latencyOf { s.cfg with latencies := l } w s.opa s.opb) .cycle }
    (s.owner = none ∨ s.owner = some a.agent) → a.addr = s.cfg.base + 8 → a.transfer = .write 4 w.toNat →
    s.status.busy = false → decode s.cfg.hasCompanion w = .ok i → operandsWritten i s = true →
    ∃ t1 t2, runSafely (latencyOf { s.cfg with latencies := l1 } w s.opa s.opb + 1) (at' l1) = some t1 ∧
      runSafely (latencyOf { s.cfg with latencies := l2 } w s.opa s.opb + 1) (at' l2) = some t2 ∧
      t2 = { t1 with cfg := { t1.cfg with latencies := l2 } }

/-! ## Encoding -/

/-- 30_encoding.md R80, R83, R87: decoding the word of a well-formed command gives the command back, with every operand; a core command
also without the companion unit. -/
def Obligations.DecodeOfEncodeIsTheCommand : Prop :=
  ∀ i : Instr, i.wf = true →
    decode true (encode i) = .ok i ∧ (i.isCompanion = false → decode false (encode i) = .ok i)

/-- 30_encoding.md R80, R86: a word that decodes is the word of the command it decodes to, and that command is well-formed: no two
words say the same command. -/
def Obligations.EncodeOfDecodeIsTheWord : Prop :=
  ∀ (hasCompanion : Bool) (w : Word) (i : Instr), decode hasCompanion w = .ok i → encode i = w ∧ i.wf = true

/-- 30_encoding.md R86, 60_exceptions.md R231: a word decodes exactly when the five conditions hold; a word that does not, written to
an idle block, completes at once (in the step of the write: log 8) with ECODE 5 and changes nothing but CMD and STATUS, even with the operands unwritten. -/
def Obligations.ExactlyLegalWordsDecode : Prop :=
  (∀ (hasCompanion : Bool) (w : Word), (∃ i, decode hasCompanion w = .ok i) ↔ Legal hasCompanion w) ∧
  ∀ (s : State) (a : Access) (rest : List HostEvent) (w : Word),
    Pending s a rest 0x008 (.write 4 w.toNat) → s.status.busy = false → ¬ Legal s.cfg.hasCompanion w →
    step s = .next { taken s a rest with cmd := w, status := errStatus 5, remaining := 0 }

/-- 30_encoding.md R87: the decoder agrees with the decoding procedure over the opcode table's masks and matches, on every word. -/
def Obligations.DecodeAgreesWithOpcodeTable : Prop :=
  ∀ (hasCompanion : Bool) (w : Word),
    (decode hasCompanion w).toOption.map Instr.mnemonic = decodeByTable hasCompanion w

/-- 30_encoding.md R87: the rows of the opcode table are disjoint. -/
def Obligations.OpcodeRowsAreDisjoint : Prop :=
  opcodeTable.Pairwise fun r q => ∀ w : Word, ¬ (r.takes true w = true ∧ q.takes true w = true)

/-- 30_encoding.md R80, R83, R84, R89: words written out from the encoding tables. -/
def Obligations.SampleWordsDecodeAsSpecified : Prop :=
  decode true 0x000C0001 = .ok (.bsrInit 4 true) ∧ decode true 0x00000010 = .ok .repget ∧
  decode false 0x00000420 = .ok (.prep (.rep .twosComplement)) ∧
  decode true 0x00000221 = .ok (.and (.rep .signedMagnitude)) ∧
  decode false 0x00000221 = .error .companionAbsent ∧
  decode false 0x00000030 = .ok .add ∧ decode true 0x00100030 = .error .reservedBits ∧
  decode true 0x00000130 = .error .fmtNotZero ∧ decode true 0x00010020 = .error .bitoffRevNotZero ∧
  decode true 0x00000000 = .error .unassignedOp

/-! ## How a command ends, and what no command touches -/

/-- 60_exceptions.md R233, R236: every command completes: with success, ERR and ECODE clear and STICKY kept, or with an error code 1 to 6, ERR
and STICKY set; then none is in flight. -/
def Obligations.EveryCommandCompletes : Prop :=
  ∀ (i : Instr) (s : State), ∃ t, exec i s = .next t ∧ t.remaining = 0 ∧
    (t.status = okStatus s ∨ ∃ code : BitVec 4, 1 ≤ code.toNat ∧ code.toNat ≤ 6 ∧ t.status = errStatus code)

/-- 60_exceptions.md R234: a command that ends with an error changes nothing but STATUS, with two exceptions: a BSR_NEXT that ends with
ECODE 4 sets BSRREM and ACTIVE to 0, and a REPGET that ends with ECODE 1 leaves FATAL set. -/
def Obligations.FailedCommandWritesOnlyStatus : Prop :=
  ∀ (i : Instr) (s t : State), exec i s = .next t → t.status.err = true →
    (i = .bsrNext ∧ t.status.ecode = 4 →
      t = { s with status := t.status, remaining := 0, bsrrem := 0, bsrstat := { s.bsrstat with active := false } }) ∧
    (i = .repget ∧ t.status.ecode = 1 →
      t = { s with status := t.status, remaining := 0, repstat := { s.repstat with fatal := true } }) ∧
    (¬ (i = .bsrNext ∧ t.status.ecode = 4) → ¬ (i = .repget ∧ t.status.ecode = 1) →
      t = { s with status := t.status, remaining := 0 })

/-- 60_exceptions.md R235, 70_reset_and_hazards.md R270: no step but a reset clears STICKY, every error completion sets it, and a reset clears it. -/
def Obligations.StickyClearedOnlyByReset : Prop :=
  (∀ s t : State, step s = .next t → (∀ rest, s.host ≠ .reset :: rest) → s.status.sticky = true → t.status.sticky = true) ∧
  (∀ (i : Instr) (s t : State), exec i s = .next t → t.status.err = true → t.status.sticky = true) ∧
  (∀ s t : State, step s = .next t → t.status ≠ s.status → t.status.done = true → t.status.err = true → t.status.sticky = true) ∧
  (∀ (s : State) (rest : List HostEvent), s.host = .reset :: rest → ∃ t, step s = .next t ∧ t.status.sticky = false)

/-- 10_state.md R25: of all commands only SMAG, PREP and BSR_NEXT write AUX, and none that ends with an error does; no host access does. -/
def Obligations.AuxWrittenOnlyBySmagPrepBsrNext : Prop :=
  (∀ (i : Instr) (s t : State), exec i s = .next t →
    ((i ≠ .smag ∧ (∀ f, i ≠ .prep f) ∧ i ≠ .bsrNext) ∨ t.status.err = true) →
    t.aux = s.aux ∧ t.auxWritten = s.auxWritten) ∧
  (∀ (s t : State) (a : Access) (rest : List HostEvent), s.host = .access a :: rest → step s = .next t →
    t.aux = s.aux ∧ t.auxWritten = s.auxWritten)

/-- 10_state.md R21, R22, R23, 20_memory.md R64: no command writes OPA, OPB, CMD, BUF, what was latched, the parameters, or anything of the host's. -/
def Obligations.CommandsLeaveHostStateAlone : Prop :=
  ∀ (i : Instr) (s t : State), exec i s = .next t →
    t.opa = s.opa ∧ t.opaWritten = s.opaWritten ∧ t.opb = s.opb ∧ t.opbWritten = s.opbWritten ∧ t.cmd = s.cmd ∧
    t.buf = s.buf ∧ t.latch = s.latch ∧ t.cfg = s.cfg ∧ t.host = s.host ∧ t.owner = s.owner ∧ t.answer = s.answer

/-- 10_state.md R30, R31, R32: only REPGET writes REPSTAT; only BSR_INIT and BSR_NEXT write the cursor. -/
def Obligations.CompanionRegistersHaveTheirWriters : Prop :=
  ∀ (i : Instr) (s t : State), exec i s = .next t →
    (i ≠ .repget → t.repstat = s.repstat) ∧
    ((∀ p r, i ≠ .bsrInit p r) → i ≠ .bsrNext →
      t.bsrstat = s.bsrstat ∧ t.bsrbyte = s.bsrbyte ∧ t.bsrrem = s.bsrrem ∧ t.draws = s.draws)

/-- 10_state.md R30: once VALID or FATAL is 1, no step but a reset changes REPSTAT. -/
def Obligations.ProbeResultNeverChanges : Prop :=
  ∀ s t : State, step s = .next t → (∀ rest, s.host ≠ .reset :: rest) →
    (s.repstat.valid = true ∨ s.repstat.fatal = true) → t.repstat = s.repstat

/-- 70_reset_and_hazards.md R282, 60_exceptions.md R245, 00_scope.md R11: a command's results and its error depend only on its latched
operands, HAS_COMPANION, BUF_LEN, BUF, the cursor and, for REPGET alone, HOST_REP and REPSTAT. The count of draws stands for the values
of unwritten bytes (log 5). -/
def Obligations.ResultsDependOnlyOnLatchedInputs : Prop :=
  ∀ (i : Instr) (s1 s2 t1 t2 : State),
    s1.latch.a = s2.latch.a → s1.latch.b = s2.latch.b →
    s1.cfg.hasCompanion = s2.cfg.hasCompanion → s1.cfg.bufLen = s2.cfg.bufLen →
    s1.buf = s2.buf → s1.bsrstat = s2.bsrstat → s1.bsrbyte = s2.bsrbyte → s1.bsrrem = s2.bsrrem → s1.draws = s2.draws →
    (i = .repget → s1.cfg.hostRep = s2.cfg.hostRep ∧ s1.repstat = s2.repstat) →
    exec i s1 = .next t1 → exec i s2 = .next t2 →
    t1.status.err = t2.status.err ∧ t1.status.ecode = t2.status.ecode ∧
    t1.bsrstat = t2.bsrstat ∧ t1.bsrbyte = t2.bsrbyte ∧ t1.bsrrem = t2.bsrrem ∧
    ((t1.res = t2.res ∧ t1.resWritten = true ∧ t2.resWritten = true) ∨
      (t1.res = s1.res ∧ t2.res = s2.res ∧ t1.resWritten = s1.resWritten ∧ t2.resWritten = s2.resWritten)) ∧
    ((t1.aux = t2.aux ∧ t1.auxWritten = true ∧ t2.auxWritten = true) ∨
      (t1.aux = s1.aux ∧ t2.aux = s2.aux ∧ t1.auxWritten = s1.auxWritten ∧ t2.auxWritten = s2.auxWritten)) ∧
    (i = .repget → t1.repstat = t2.repstat)

/-- 20_memory.md R67, R71: RES, AUX, REPSTAT and the cursor change only in a command's last cycle and on reset. That a step with nothing
pending is a cycle is the model's choice (log 6). -/
def Obligations.ResultsChangeOnlyAtCompletionOrReset : Prop :=
  ∀ s t : State, step s = .next t → (∀ rest, s.host ≠ .reset :: rest) →
    (t.res ≠ s.res ∨ t.aux ≠ s.aux ∨ t.repstat ≠ s.repstat ∨ t.bsrstat ≠ s.bsrstat ∨ t.bsrbyte ≠ s.bsrbyte ∨ t.bsrrem ≠ s.bsrrem) →
    s.remaining = 1 ∧ (s.host = [] ∨ ∃ rest, s.host = .cycle :: rest)

/-- 10_state.md R21, R22, 20_memory.md R64, R68: OPA, OPB and BUF change only on a host write and on reset. -/
def Obligations.OperandsAndBufferChangeOnlyByHost : Prop :=
  ∀ s t : State, step s = .next t → (t.opa ≠ s.opa ∨ t.opb ≠ s.opb ∨ t.buf ≠ s.buf) →
    (∃ rest, s.host = .reset :: rest) ∨
    ∃ a rest n d, s.host = .access a :: rest ∧ a.transfer = .write n d

/-- 00_scope.md R9 to R13: no step changes a parameter. -/
def Obligations.ParametersNeverChange : Prop := ∀ s t : State, step s = .next t → t.cfg = s.cfg

/-! ## The commands -/

/-- 43_adder.md R161: ADD gives the sum modulo 2^32 in RES and changes nothing else but STATUS. -/
def Obligations.AddIsSumModuloWord : Prop := ∀ s : State, exec .add s = .next (completes s (s.latch.a + s.latch.b))

/-- 43_adder.md R163: SUB gives the difference modulo 2^32 in RES and changes nothing else but STATUS. -/
def Obligations.SubIsDifferenceModuloWord : Prop := ∀ s : State, exec .sub s = .next (completes s (s.latch.a - s.latch.b))

/-- 44_multiplier.md R171: MUL gives the low 32 bits of the product in RES and changes nothing else but STATUS. -/
def Obligations.MulIsLowWordOfProduct : Prop := ∀ s : State, exec .mul s = .next (completes s (s.latch.a * s.latch.b))

/-- 45_divider.md R181, R182, R185: DIV gives the unsigned quotient and MOD the unsigned remainder; for b = 0 both end with ECODE 3. -/
def Obligations.DivAndModAreQuotientAndRemainder : Prop :=
  ∀ s : State,
    (s.latch.b = 0 → exec .div s = .next (failsWith s 3) ∧ exec .mod s = .next (failsWith s 3)) ∧
    (s.latch.b ≠ 0 → exec .div s = .next (completes s (s.latch.a / s.latch.b)) ∧
      exec .mod s = .next (completes s (s.latch.a % s.latch.b)))

/-- 45_divider.md R183, the source's law: the division identity, in unbounded arithmetic. -/
def Obligations.DivisionIdentityHolds : Prop :=
  ∀ s : State, s.latch.b ≠ 0 → ∃ q r : Word,
    exec .div s = .next (completes s q) ∧ exec .mod s = .next (completes s r) ∧
    q.toNat * s.latch.b.toNat + r.toNat = s.latch.a.toNat ∧ r < s.latch.b

/-- 46_square_root.md R201, R202: SQRT gives the floor square root, at most 0xFFFF, in RES and changes nothing else but STATUS. -/
def Obligations.SqrtIsFloorSquareRoot : Prop :=
  ∀ s : State, ∃ r : Word, exec .sqrt s = .next (completes s r) ∧
    r.toNat ^ 2 ≤ s.latch.a.toNat ∧ s.latch.a.toNat < (r.toNat + 1) ^ 2 ∧ r.toNat ≤ 0xFFFF

/-- 47_logarithm.md R210, R211, with law 1 of R214 and the value 0 of LOG(0, b), which the spec derives from R210: LOG gives the floor
logarithm; base 0 ends with ECODE 3, base 1 with ECODE 6 unless n = 0, which gives 0, as n = 0 does for every base of 2 or more. -/
def Obligations.LogIsFloorLogarithm : Prop :=
  ∀ s : State,
    (s.latch.b = 0 → exec .log s = .next (failsWith s 3)) ∧
    (s.latch.b = 1 → s.latch.a ≠ 0 → exec .log s = .next (failsWith s 6)) ∧
    (s.latch.b ≠ 0 → s.latch.a = 0 → exec .log s = .next (completes s 0)) ∧
    (2 ≤ s.latch.b.toNat → s.latch.a ≠ 0 → ∃ c : Word, exec .log s = .next (completes s c) ∧
      s.latch.b.toNat ^ c.toNat ≤ s.latch.a.toNat ∧ s.latch.a.toNat < s.latch.b.toNat ^ (c.toNat + 1))

/-- 47_logarithm.md R213: LOG2 gives the index of the highest set bit; and 0 of 0, which the spec derives from R212. -/
def Obligations.LogTwoIsHighestSetBit : Prop :=
  ∀ s : State,
    (s.latch.a = 0 → exec .log2 s = .next (completes s 0)) ∧
    (s.latch.a ≠ 0 → ∃ c : Word, exec .log2 s = .next (completes s c) ∧ c.toNat ≤ 31 ∧
      s.latch.a.getLsbD c.toNat = true ∧ ∀ k, c.toNat < k → s.latch.a.getLsbD k = false)

/-- 47_logarithm.md R214, a law the spec derives from R210, R212 and R181: with base 2, LOG is LOG2. -/
def Obligations.LogOfBaseTwoIsLogTwo : Prop := ∀ s : State, s.latch.b = 2 → exec .log s = exec .log2 s

/-- 41_representation.md R125, R126: ONES complements the word and TWOS negates it modulo 2^32. -/
def Obligations.OnesAndTwosComplement : Prop :=
  ∀ s : State, exec .ones s = .next (completes s (~~~s.latch.a)) ∧ exec .twos s = .next (completes s (-s.latch.a))

/-- 41_representation.md R127, R133: SMAG gives the magnitude in RES and the sign word in AUX. -/
def Obligations.SmagSplitsMagnitudeAndSign : Prop :=
  ∀ s : State,
    exec .smag s = .next { completes s (if s.latch.a.msb then -s.latch.a else s.latch.a) with
      aux := if s.latch.a.toInt < 0 then 0xFFFFFFFF else if s.latch.a = 0 then 0 else 1
      auxWritten := true }

/-- 41_representation.md R129, R130: TC2SM and SM2TC pass a word without bit 31; otherwise they give the negated word, or the negated
magnitude, with bit 31 set. -/
def Obligations.ConvertersBetweenSignMagnitudeAndTwos : Prop :=
  ∀ s : State,
    exec .tc2sm s = .next (completes s (if s.latch.a.msb then -s.latch.a ||| 0x80000000 else s.latch.a)) ∧
    exec .sm2tc s = .next (completes s
      (if s.latch.a.msb then -(s.latch.a &&& 0x7FFFFFFF) ||| 0x80000000 else s.latch.a))

/-- 41_representation.md R131, laws the spec derives from R125, R126, R129 and R130: the converter laws 1 to 5, each command run on the result of the
one before; the value differs only at -2^31. -/
def Obligations.ConvertersRoundTrip : Prop :=
  ∀ (s : State) (v : Word),
    (∃ u, exec .ones (withA s v) = .next (completes (withA s v) u) ∧
      exec .ones (withA s u) = .next (completes (withA s u) v)) ∧
    (∃ u, exec .twos (withA s v) = .next (completes (withA s v) u) ∧
      exec .twos (withA s u) = .next (completes (withA s u) v)) ∧
    (∃ u, exec .sm2tc (withA s v) = .next (completes (withA s v) u) ∧
      exec .tc2sm (withA s u) = .next (completes (withA s u) v)) ∧
    (∃ u, exec .tc2sm (withA s v) = .next (completes (withA s v) u) ∧
      exec .sm2tc (withA s u) = .next (completes (withA s u) v) ∧
      (signMagnitudeValue u = v.toInt ↔ v ≠ 0x80000000))

/-- 42_bitwise_logic.md R140, 41_representation.md R132: PREP converts both operands, or ends with ECODE 2. -/
def Obligations.PrepConvertsBothOperands : Prop :=
  ∀ (s : State) (f : Fmt), f.wf = true →
    exec (.prep f) s = .next (match convOf f.code s.latch.a, convOf f.code s.latch.b with
      | some l, some r => { completes s l with aux := r, auxWritten := true }
      | _, _ => failsWith s 2)

/-- 42_bitwise_logic.md R141 to R146: the logic commands combine the converted operands, or end with ECODE 2. That XXOR always equals
XOR is a sentence of R146 that the spec derives from R143. -/
def Obligations.LogicCommandsCombineConvertedOperands : Prop :=
  ∀ (s : State) (f : Fmt), s.cfg.hasCompanion = true → f.wf = true →
    exec (.and f) s = .next (afterFmt s f fun l r => l &&& r) ∧
    exec (.or f) s = .next (afterFmt s f fun l r => l ||| r) ∧
    exec (.xor f) s = .next (afterFmt s f fun l r => l ^^^ r) ∧
    exec (.nand f) s = .next (afterFmt s f fun l r => ~~~(l &&& r)) ∧
    exec (.nor f) s = .next (afterFmt s f fun l r => ~~~(l ||| r)) ∧
    exec (.xxor f) s = .next (afterFmt s f fun l r => (~~~l &&& r) ||| (l &&& ~~~r)) ∧
    exec (.xxor f) s = exec (.xor f) s

/-- 42_bitwise_logic.md R147: BXOR gives 1 exactly when one operand is 0 and the other is not. -/
def Obligations.BxorIsBooleanXor : Prop :=
  ∀ s : State, s.cfg.hasCompanion = true →
    exec .bxor s = .next (completes s
      (if s.latch.a = 0 then (if s.latch.b = 0 then 0 else 1) else (if s.latch.b = 0 then 1 else 0)))

/-- 40_bit_sequence_reader.md R102, R103: BSR_INIT sets the cursor and nothing else but STATUS. -/
def Obligations.BsrInitSetsCursor : Prop :=
  ∀ (s : State) (p : BitVec 3) (rev : Bool), s.cfg.hasCompanion = true →
    exec (.bsrInit p rev) s = .next { s with
      bsrbyte := s.latch.a
      bsrrem := countOf s.latch.b
      bsrstat := { active := decide (countOf s.latch.b ≠ 0), rev := rev, bit := p }
      status := okStatus s
      remaining := 0 }

/-- 40_bit_sequence_reader.md R104, R105, R106: BSR_NEXT on an exhausted sequence, beyond the buffer, on a byte the host has written, and on one it
has not, whose value is free. -/
def Obligations.BsrNextConsumesOneElement : Prop :=
  ∀ s : State, s.cfg.hasCompanion = true →
    (s.bsrrem = 0 → exec .bsrNext s = .next { s with aux := 0, auxWritten := true, status := okStatus s, remaining := 0 }) ∧
    (s.bsrrem ≠ 0 → s.cfg.bufLen.val ≤ s.bsrbyte.toNat →
      exec .bsrNext s = .next { failsWith s 4 with bsrrem := 0, bsrstat := { s.bsrstat with active := false } }) ∧
    (s.bsrrem ≠ 0 → s.bsrbyte.toNat < s.cfg.bufLen.val →
      (∀ y, s.buf.read s.bsrbyte.toNat = some y → exec .bsrNext s = .next (producesFrom s y)) ∧
      (s.buf.read s.bsrbyte.toNat = none → ∃ y n, exec .bsrNext s = .next { producesFrom s y with draws := n }))

/-- 40_bit_sequence_reader.md R109, which the spec derives from R102 and R105: BSR_INIT and then BSR_NEXT, any number of times, give the
elements of the sequence in order, IndexOutOfRange where it fails, and no element after its end, for a buffer the host has written (an
unwritten byte, whose value is free, stands in BsrNextConsumesOneElement). -/
def Obligations.ReaderProducesBitSequence : Prop :=
  ∀ (s : State) (p : BitVec 3) (rev : Bool) (bytes : Nat → Byte) (k : Nat), s.cfg.hasCompanion = true →
    (∀ j, j < s.cfg.bufLen.val → s.buf.read j = some (bytes j)) →
    ∃ t u, afterNexts k (exec (.bsrInit p rev) s) = some t ∧ exec .bsrNext t = .next u ∧
      match (bitSeq bytes s.cfg.bufLen.val rev (countOf s.latch.b).toNat s.latch.a.toNat p.toNat)[k]? with
      | some (some e) => u.res = (if e then 1 else 0) ∧ u.aux = 1 ∧ u.status = okStatus t
      | some none => u.res = t.res ∧ u.aux = t.aux ∧ u.status = errStatus 4
      | none => u.res = t.res ∧ u.aux = 0 ∧ u.status = okStatus t

/-- 41_representation.md R121 to R123: REPGET's answer before and after the probe. The answer for each host is the table of R124, which the
spec derives from R122 and R123. -/
def Obligations.RepgetProbesOnceAndLatches : Prop :=
  ∀ s : State, s.cfg.hasCompanion = true →
    (s.repstat.valid = true → exec .repget s = .next (completes s (s.repstat.rep.setWidth 32))) ∧
    (s.repstat.valid = false → s.repstat.fatal = true → exec .repget s = .next (failsWith s 1)) ∧
    (s.repstat.valid = false → s.repstat.fatal = false →
      exec .repget s = .next (match s.cfg.hostRep with
        | .twosComplement  => { completes s 4 with repstat := { valid := true, fatal := false, rep := 4 } }
        | .onesComplement  => { completes s 1 with repstat := { valid := true, fatal := false, rep := 1 } }
        | .signedMagnitude => { completes s 2 with repstat := { valid := true, fatal := false, rep := 2 } }
        | .other           => { failsWith s 1 with repstat := { s.repstat with fatal := true } }))

/-- 00_scope.md R9, 30_encoding.md R88: without the companion unit a companion command's word does not decode; that the command itself would end as
an illegal one is the model's choice (log 17). -/
def Obligations.CompanionCommandsAreIllegalWithoutIt : Prop :=
  ∀ (i : Instr) (s : State), i.isCompanion = true → s.cfg.hasCompanion = false →
    decode false (encode i) = .error .companionAbsent ∧ exec i s = .next (failsWith s 5)

/-! ## The host's side -/

/-- 10_state.md R26, R30, R31: the status registers' fields at their bits; every other bit reads 0. -/
def Obligations.StatusRegistersHaveTheirLayout : Prop :=
  (∀ t : Status, t.word = BitVec.ofNat 32 (t.busy.toNat + 2 * t.done.toNat + 4 * t.err.toNat + 16 * t.ecode.toNat + 256 * t.sticky.toNat)) ∧
  (∀ t : RepStat, t.word = BitVec.ofNat 32 (t.valid.toNat + 2 * t.fatal.toNat + 256 * t.rep.toNat)) ∧
  (∀ t : BsrStat, t.word = BitVec.ofNat 32 (t.active.toNat + 2 * t.rev.toNat + 16 * t.bit.toNat))

/-- 10_state.md R20, R33, R37, 70_reset_and_hazards.md R281: a host read of an aligned word returns the register at its offset, 0 at a
reserved one, and some unspecified value where the spec leaves it open; it changes nothing else. Four clauses are the model's choice:
that OPA, OPB and CMD read as themselves also while BUSY (log 14), that a companion register reads 0 also while BUSY in a block without
the companion unit (log 12), that what is returned stands in `answer` (log 16), and that an open value is a draw (log 5). -/
def Obligations.RegisterReadsReturnTheRegister : Prop :=
  ∀ (s : State) (a : Access) (rest : List HostEvent) (off : Nat),
    Pending s a rest off (.read 4) → off < 0x1000 → off % 4 = 0 →
    (∀ v, readable s off = some v → step s = .next { taken s a rest with answer := some v }) ∧
    (readable s off = none → ∃ v n, step s = .next { taken s a rest with answer := some v, draws := n })

/-- 10_state.md R21, R22, 20_memory.md R68: a host write of OPA or OPB stores the word and does nothing else, also while a command runs. -/
def Obligations.OperandWritesStore : Prop :=
  ∀ (s : State) (a : Access) (rest : List HostEvent) (v : Word),
    (Pending s a rest 0x000 (.write 4 v.toNat) → step s = .next { taken s a rest with opa := v, opaWritten := true }) ∧
    (Pending s a rest 0x004 (.write 4 v.toNat) → step s = .next { taken s a rest with opb := v, opbWritten := true })

/-- 20_memory.md R62, R64: a host write of a byte of BUF in an idle block stores it and leaves every other byte and all else alone. -/
def Obligations.BufferWriteStoresOneByte : Prop :=
  ∀ (s : State) (a : Access) (rest : List HostEvent) (i : Nat) (v : Byte),
    Pending s a rest (0x1000 + i) (.write 1 v.toNat) → s.cfg.hasCompanion = true → i < s.cfg.bufLen.val → s.status.busy = false →
    ∃ m, step s = .next { taken s a rest with buf := m } ∧
      ∀ j, Memory.read m j = if j = i then some v else s.buf.read j

/-- 20_memory.md R62, R63: a host read of a byte of BUF returns the byte last written, or an unspecified one; it changes nothing else. That
it does so also while BUSY is the model's choice (log 14), as are that the byte stands in `answer`, extended with zeros (log 16), and that
an unspecified byte is a draw (log 5). -/
def Obligations.BufferReadReturnsTheByte : Prop :=
  ∀ (s : State) (a : Access) (rest : List HostEvent) (i : Nat),
    Pending s a rest (0x1000 + i) (.read 1) → s.cfg.hasCompanion = true → i < s.cfg.bufLen.val →
    (∀ y, s.buf.read i = some y → step s = .next { taken s a rest with answer := some (y.setWidth 32) }) ∧
    (s.buf.read i = none → ∃ (y : Byte) (n : Nat), step s = .next { taken s a rest with answer := some (y.setWidth 32), draws := n })

/-- 10_state.md R39, 20_memory.md R62: a write of a read-only register, a reserved offset or a byte the buffer does not have is ignored,
and a read of a reserved offset or such a byte returns 0; none is an error. That a write of such a byte is ignored also while BUSY, and is
no violation of R280 item 2, is the model's choice (log 13), as is that what is returned stands in `answer` (log 16). -/
def Obligations.ReadOnlyAndReservedOffsets : Prop :=
  ∀ (s : State) (a : Access) (rest : List HostEvent) (off d : Nat),
    (Pending s a rest off (.write 4 d) → 0x00C ≤ off → off < 0x1000 → off % 4 = 0 → step s = .next (taken s a rest)) ∧
    (Pending s a rest off (.read 4) → 0x028 ≤ off → off < 0x1000 → off % 4 = 0 →
      step s = .next { taken s a rest with answer := some 0 }) ∧
    (0x1000 ≤ off → (s.cfg.hasCompanion = false ∨ s.cfg.bufLen.val ≤ off - 0x1000) →
      (Pending s a rest off (.write 1 d) → step s = .next (taken s a rest)) ∧
      (Pending s a rest off (.read 1) → step s = .next { taken s a rest with answer := some 0 }))

/-- 20_memory.md R68: no host read has a side effect on the block. That what is returned stands in `answer`, and that open values are counted
in `draws`, is the model's choice (logs 16, 5). -/
def Obligations.HostReadsHaveNoSideEffect : Prop :=
  ∀ (s t : State) (a : Access) (rest : List HostEvent) (n : Nat),
    s.host = .access a :: rest → a.transfer = .read n → step s = .next t →
    t = { taken s a rest with answer := t.answer, draws := t.draws }

/-- 70_reset_and_hazards.md R280 (whose sequence an access belongs to is told by the model's marks, log 10; a byte BUF does not have is not BUF, log 13):
each host contract violation is a fault: CMD or BUF written while BUSY, a command that reads an operand the host has not
written, a register-range access that is no aligned 32-bit word, a BUF-range access that is not one byte, and an access inside
another agent's sequence. -/
def Obligations.HostContractViolationsFault : Prop :=
  (∀ (s : State) (a : Access) (rest : List HostEvent) (d : Nat),
    Pending s a rest 0x008 (.write 4 d) → s.status.busy = true → step s = .fault .cmdWriteWhileBusy) ∧
  (∀ (s : State) (a : Access) (rest : List HostEvent) (i d : Nat),
    Pending s a rest (0x1000 + i) (.write 1 d) → s.cfg.hasCompanion = true → i < s.cfg.bufLen.val → s.status.busy = true →
    step s = .fault .bufWriteWhileBusy) ∧
  (∀ (s : State) (a : Access) (rest : List HostEvent) (w : Word) (i : Instr),
    Pending s a rest 0x008 (.write 4 w.toNat) → s.status.busy = false → decode s.cfg.hasCompanion w = .ok i →
    ((needsOpa i ∧ s.opaWritten = false) ∨ (needsOpb i ∧ s.opbWritten = false)) → step s = .fault .unwrittenOperand) ∧
  (∀ (s : State) (a : Access) (rest : List HostEvent) (off n d : Nat), off < 0x1000 → (off % 4 ≠ 0 ∨ n ≠ 4) →
    (Pending s a rest off (.read n) ∨ Pending s a rest off (.write n d)) → step s = .fault .registerAccessForm) ∧
  (∀ (s : State) (a : Access) (rest : List HostEvent) (off n d : Nat), 0x1000 ≤ off → n ≠ 1 →
    (Pending s a rest off (.read n) ∨ Pending s a rest off (.write n d)) → step s = .fault .bufAccessForm) ∧
  (∀ (s : State) (a : Access) (rest : List HostEvent) (g : Nat), s.host = .access a :: rest → s.owner = some g → g ≠ a.agent →
    step s = .fault .interleavedAgents)
end

