-- ==== Sys2Proof/Laws/Decode.lean ====
section
/-! SUPPORT. The fields of a command word made from fields, and the format codes (30_encoding.md R80, R84). -/

namespace Sys2Proof

/-- R80: the bits of a command word made from its fields. -/
theorem cmdWord_bit (rev : Bool) (bitoff : BitVec 3) (fmt op : BitVec 8) (i : Nat) :
    (cmdWord rev bitoff fmt op).getLsbD i =
      if i < 8 then op.getLsbD i else if i < 16 then fmt.getLsbD (i - 8)
      else if i < 19 then bitoff.getLsbD (i - 16) else if i = 19 then rev else false := by
  rw [cmdWord, BitVec.getLsbD_append, BitVec.getLsbD_append, BitVec.getLsbD_append, BitVec.getLsbD_append,
    BitVec.getLsbD_zero, BitVec.getLsbD_ofBool]
  simp only [Nat.reduceAdd]
  by_cases h1 : i < 8
  · rw [if_pos (by omega), if_pos (by omega), if_pos (by omega), if_pos h1, if_pos h1]
  · by_cases h2 : i < 16
    · rw [if_pos (by omega), if_pos (by omega), if_pos h2, if_neg h1, if_neg h1, if_pos h2]
    · by_cases h3 : i < 19
      · rw [if_pos (by omega), if_pos h3, if_neg h2, if_neg h1, if_neg h2, if_pos h3]
      · by_cases h4 : i = 19
        · subst h4; simp
        · rw [if_neg (by omega), if_neg h1, if_neg h2, if_neg h3, if_neg h4]

section
variable (rev : Bool) (bitoff : BitVec 3) (fmt op : BitVec 8)

@[simp] theorem cmdOp_cmdWord : cmdOp (cmdWord rev bitoff fmt op) = op := by
  ext i hi
  rw [cmdOp, BitVec.getElem_extractLsb', cmdWord_bit, if_pos (by omega), Nat.zero_add, BitVec.getLsbD_eq_getElem hi]

@[simp] theorem cmdFmt_cmdWord : cmdFmt (cmdWord rev bitoff fmt op) = fmt := by
  ext i hi
  rw [cmdFmt, BitVec.getElem_extractLsb', cmdWord_bit, if_neg (by omega), if_pos (by omega), Nat.add_sub_cancel_left,
    BitVec.getLsbD_eq_getElem hi]

@[simp] theorem cmdBitoff_cmdWord : cmdBitoff (cmdWord rev bitoff fmt op) = bitoff := by
  ext i hi
  rw [cmdBitoff, BitVec.getElem_extractLsb', cmdWord_bit, if_neg (by omega), if_neg (by omega), if_pos (by omega),
    Nat.add_sub_cancel_left, BitVec.getLsbD_eq_getElem hi]

@[simp] theorem cmdRev_cmdWord : cmdRev (cmdWord rev bitoff fmt op) = rev := by
  rw [cmdRev, cmdWord_bit]; rfl

@[simp] theorem cmdRsv_cmdWord : cmdRsv (cmdWord rev bitoff fmt op) = 0 := by
  ext i hi
  rw [cmdRsv, BitVec.getElem_extractLsb', cmdWord_bit, if_neg (by omega), if_neg (by omega), if_neg (by omega),
    if_neg (by omega)]
  simp

end

/-- R86 condition 5: whether BITOFF and REV are both 0. -/
theorem cmdNoBits_iff (w : Word) : cmdNoBits w = true ↔ cmdRev w = false ∧ cmdBitoff w = 0 := by
  rw [cmdNoBits, beq_iff_eq]
  constructor
  · intro h
    have bit : ∀ k, k < 4 → w.getLsbD (16 + k) = false := by
      intro k hk
      have := congrArg (fun x => x.getLsbD k) h
      simpa [BitVec.getLsbD_extractLsb', hk] using this
    refine ⟨bit 3 (by omega), ?_⟩
    ext i hi
    rw [cmdBitoff, BitVec.getElem_extractLsb', bit i (by omega)]; simp
  · rintro ⟨h1, h2⟩
    ext i hi
    rw [BitVec.getElem_extractLsb']
    by_cases h3 : i = 3
    · subst h3; rw [show w.getLsbD (16 + 3) = false from h1]; simp
    · have := congrArg (fun x => x.getLsbD i) h2
      rw [cmdBitoff] at this
      simp only [BitVec.getLsbD_extractLsb', show i < 3 by omega, decide_true, Bool.true_and] at this
      rw [this]; simp

/-- R86 condition 5 holds of a word made without BITOFF and REV. -/
@[simp] theorem cmdNoBits_cmdWord (fmt op : BitVec 8) : cmdNoBits (cmdWord false 0#3 fmt op) = true := by
  rw [cmdNoBits_iff, cmdRev_cmdWord, cmdBitoff_cmdWord]; exact ⟨rfl, rfl⟩

/-- A word is its fields: the reserved bits, REV, BITOFF, FMT and OP. -/
theorem cmdWord_fields (w : Word) (h : cmdRsv w = 0) : cmdWord (cmdRev w) (cmdBitoff w) (cmdFmt w) (cmdOp w) = w := by
  apply BitVec.eq_of_getLsbD_eq
  intro i hi
  rw [cmdWord_bit, cmdRev, cmdBitoff, cmdFmt, cmdOp]
  simp only [BitVec.getLsbD_extractLsb']
  by_cases h1 : i < 8
  · simp [h1]
  · by_cases h2 : i < 16
    · simp [h1, h2, show i - 8 < 8 by omega, show 8 + (i - 8) = i by omega]
    · by_cases h3 : i < 19
      · simp [h1, h2, h3, show i - 16 < 3 by omega, show 16 + (i - 16) = i by omega]
      · by_cases h4 : i = 19
        · subst h4; simp
        · have hz : (cmdRsv w).getLsbD (i - 20) = false := by rw [h]; simp
          rw [cmdRsv, BitVec.getLsbD_extractLsb', show 20 + (i - 20) = i by omega] at hz
          simp only [show i - 20 < 12 by omega, decide_true, Bool.true_and] at hz
          simp [h1, h2, h3, h4, hz]

/-- R84: a code that names a Representation is that Representation's code. -/
theorem Representation.code_ofCode (c : BitVec 8) (r : Representation) (h : Representation.ofCode c = some r) : r.code = c := by
  unfold Representation.ofCode at h
  repeat' split at h
  all_goals first | (cases h; simp_all [Representation.code]) | cases h

/-- R84: every Representation is the one its code names. -/
theorem Representation.ofCode_code (r : Representation) : Representation.ofCode r.code = some r := by
  cases r <;> decide

/-- R84: reading an FMT field and writing it back loses nothing. -/
@[simp] theorem Fmt.code_ofCode (c : BitVec 8) : (Fmt.ofCode c).code = c := by
  unfold Fmt.ofCode
  split
  · rename_i r h; exact Representation.code_ofCode c r h
  · rfl

/-- R84: what the decoder reads from an FMT field is well-formed. -/
@[simp] theorem Fmt.wf_ofCode (c : BitVec 8) : (Fmt.ofCode c).wf = true := by
  unfold Fmt.ofCode
  split
  · rfl
  · rename_i h; simp [Fmt.wf, h]

/-- R84: a well-formed format is what its code says. -/
theorem Fmt.ofCode_code (f : Fmt) (h : f.wf = true) : Fmt.ofCode f.code = f := by
  cases f with
  | rep r => simp [Fmt.ofCode, Fmt.code, Representation.ofCode_code]
  | other c =>
    have hn : Representation.ofCode c = none := by simpa [Fmt.wf] using h
    simp [Fmt.ofCode, Fmt.code, hn]

end Sys2Proof
end

