-- ==== Sys2Proof/Laws/Units.lean ====
section
/-! SUPPORT. What each arithmetic unit computes, once: the loops of 43_adder.md to 47_logarithm.md against unbounded arithmetic. -/

namespace Sys2Proof.Machine

/-- The sum of two numbers is their bitwise sum without carries and twice their carries. -/
theorem nat_xor_add_carries (a b : Nat) : (a ^^^ b) + 2 * (a &&& b) = a + b := by
  induction a using Nat.strongRecOn generalizing b with
  | ind a ih =>
    by_cases ha : a = 0
    · subst ha; simp
    · have h := ih (a / 2) (by omega) (b / 2)
      have hx : (a ^^^ b) / 2 = a / 2 ^^^ b / 2 := Nat.xor_div_two
      have hn : (a &&& b) / 2 = a / 2 &&& b / 2 := Nat.and_div_two
      rw [← hx, ← hn] at h
      have hxm : (a ^^^ b) % 2 = (a + b) % 2 := Nat.xor_mod_two_eq
      have hnm : (a &&& b) % 2 = 1 ↔ a % 2 = 1 ∧ b % 2 = 1 := Nat.and_mod_two_eq_one
      omega

/-- One iteration of the adder keeps the sum. -/
theorem adder_iteration (a b : Word) : (a ^^^ b) + ((a &&& b) <<< 1) = a + b := by
  apply BitVec.eq_of_toNat_eq
  have h := nat_xor_add_carries a.toNat b.toNat
  rw [BitVec.toNat_add, BitVec.toNat_shiftLeft, BitVec.toNat_xor, BitVec.toNat_and, Nat.shiftLeft_eq,
    BitVec.toNat_add, ← h]
  omega

/-- R160: after `32 - n` iterations the low `32 - n` bits of `b` are 0, so `n` more end the loop with the sum. -/
theorem adderLoop_eq (n : Nat) (a b : Word) (h : 2 ^ (32 - n) ∣ b.toNat) (hn : n ≤ 32) :
    adderLoop n a b = a + b := by
  induction n generalizing a b with
  | zero =>
    have hb : b.toNat = 0 := Nat.eq_zero_of_dvd_of_lt h b.isLt
    have : b = 0 := BitVec.eq_of_toNat_eq hb
    simp [adderLoop, this]
  | succ n ih =>
    unfold adderLoop
    split
    · rename_i hb; simp [hb]
    · rw [ih _ _ _ (by omega), adder_iteration]
      rw [BitVec.toNat_shiftLeft, BitVec.toNat_and, Nat.shiftLeft_eq]
      have hpow : 2 ^ (32 - n) = 2 ^ (32 - (n + 1)) * 2 ^ 1 := by
        rw [← Nat.pow_add]; congr 1; omega
      have hand : 2 ^ (32 - (n + 1)) ∣ a.toNat &&& b.toNat := by
        rw [Nat.dvd_iff_mod_eq_zero, Nat.and_mod_two_pow, Nat.mod_eq_zero_of_dvd h, Nat.and_zero]
      rw [(Nat.dvd_mod_iff (pow_dvd_pow 2 (by omega)))]
      rw [hpow]
      exact Nat.mul_dvd_mul hand (dvd_refl _)

/-- R160, R161: the carry-propagate adder adds modulo 2^32. -/
theorem adder_eq (a b : Word) : adder a b = a + b :=
  adderLoop_eq 32 a b (by simp) (Nat.le_refl _)

/-- R162, R163: the subtractor subtracts modulo 2^32. -/
theorem subtractor_eq (a b : Word) : subtractor a b = a - b := by
  rw [subtractor, adder_eq, adder_eq]
  show a + (~~~b + 1#32) = a - b
  rw [← BitVec.neg_eq_not_add, BitVec.sub_eq_add_neg]

/-- One iteration of the multiplier keeps accumulator plus product. -/
theorem multiplier_iteration (acc a b : Word) :
    (if b.getLsbD 0 then acc + a else acc) + (a <<< 1) * (b >>> 1) = acc + a * b := by
  have hb : b = (b >>> 1) * 2 + (if b.getLsbD 0 then 1 else 0) := by
    apply BitVec.eq_of_toNat_eq
    have hlt := b.isLt
    have hbit : b.getLsbD 0 = decide (b.toNat % 2 = 1) := by
      simp [BitVec.getLsbD, Nat.testBit_zero]
    rw [hbit]
    by_cases h : b.toNat % 2 = 1 <;>
      simp [h, BitVec.toNat_add, BitVec.toNat_mul, Nat.shiftRight_eq_div_pow] <;> omega
  have h1 : a <<< 1 = a * 2 := by rw [BitVec.shiftLeft_eq_mul_twoPow]; rfl
  conv => rhs; rw [hb]
  rw [h1]
  by_cases h : b.getLsbD 0 = true
  · simp only [h, if_true]; ring
  · simp only [h]; simp; ring

/-- R170: with `b` below 2^n, `n` iterations end the loop with accumulator plus product. -/
theorem multiplierLoop_eq (n : Nat) (acc a b : Word) (h : b.toNat < 2 ^ n) :
    multiplierLoop n acc a b = acc + a * b := by
  induction n generalizing acc a b with
  | zero =>
    have : b = 0 := BitVec.eq_of_toNat_eq (by simpa using h)
    simp [multiplierLoop, this]
  | succ n ih =>
    unfold multiplierLoop
    split
    · rename_i hb; simp [hb]
    · rw [ih, adder_eq, multiplier_iteration]
      rw [BitVec.toNat_ushiftRight, Nat.shiftRight_eq_div_pow]
      omega

/-- R170, R171: the multiplier gives the low 32 bits of the product. -/
theorem multiplier_eq (a b : Word) : multiplier a b = a * b := by
  rw [multiplier, multiplierLoop_eq _ _ _ _ b.isLt]; simp

/-- R180: alignment gives `b` times a power of 2 with no bit lost: either it reaches the dividend or the guard stops it. -/
theorem alignLoop_spec (n : Nat) (a b hold : Word) (k : Nat) (hk : hold.toNat = b.toNat * 2 ^ k)
    (hb : b ≠ 0) (hn : n + k = 31) :
    ∃ j, k ≤ j ∧ j ≤ 31 ∧ (alignLoop n a hold).toNat = b.toNat * 2 ^ j ∧
      a.toNat < 2 * (alignLoop n a hold).toNat := by
  have hb0 : 0 < b.toNat := by
    rcases Nat.eq_zero_or_pos b.toNat with h | h
    · exact absurd (BitVec.eq_of_toNat_eq h) hb
    · exact h
  induction n generalizing hold k with
  | zero =>
    refine ⟨k, Nat.le_refl _, by omega, hk, ?_⟩
    have : k = 31 := by omega
    subst this
    simp only [alignLoop]
    have := a.isLt
    rw [hk]
    have : 1 * 2 ^ 31 ≤ b.toNat * 2 ^ 31 := Nat.mul_le_mul_right _ hb0
    omega
  | succ n ih =>
    unfold alignLoop
    split
    · rename_i h
      have hlow : hold.toNat < 2 ^ 31 := by
        have := h.2
        rw [← BitVec.msb_eq_getLsbD_last hold] at this
        rw [BitVec.msb_eq_decide] at this
        simpa using this
      have hs : (hold <<< 1).toNat = b.toNat * 2 ^ (k + 1) := by
        rw [BitVec.toNat_shiftLeft, Nat.shiftLeft_eq, Nat.mod_eq_of_lt (by omega), hk]
        ring
      obtain ⟨j, h1, h2, h3, h4⟩ := ih (hold <<< 1) (k + 1) hs (by omega)
      exact ⟨j, by omega, h2, h3, h4⟩
    · rename_i h
      refine ⟨k, Nat.le_refl _, by omega, hk, ?_⟩
      by_cases hlt : hold < a
      · have hg : hold.getLsbD 31 = true := by
          by_contra hc
          exact h ⟨hlt, by simpa using hc⟩
        rw [← BitVec.msb_eq_getLsbD_last hold, BitVec.msb_eq_decide] at hg
        have := a.isLt
        have : 2 ^ 31 ≤ hold.toNat := by simpa using hg
        omega
      · have : a.toNat ≤ hold.toNat := by simpa [BitVec.lt_def] using hlt
        have : 0 < hold.toNat := by rw [hk]; positivity
        omega

/-- R180: from `hold = b * 2^k` above half of what is left, the main loop gives quotient and remainder. -/
theorem divideLoop_spec (n k : Nat) (a b hold q : Word) (hk : hold.toNat = b.toNat * 2 ^ k) (hb : b ≠ 0)
    (ha : a.toNat < 2 * hold.toNat) (hn : k + 1 ≤ n) (hq : (q.toNat + 1) * 2 ^ (k + 1) ≤ 2 ^ 32) :
    (divideLoop n a b hold q).q.toNat = q.toNat * 2 ^ (k + 1) + a.toNat / b.toNat ∧
      (divideLoop n a b hold q).r.toNat = a.toNat % b.toNat := by
  have hb0 : 0 < b.toNat := by
    rcases Nat.eq_zero_or_pos b.toNat with h | h
    · exact absurd (BitVec.eq_of_toNat_eq h) hb
    · exact h
  induction k generalizing n a hold q with
  | zero =>
    obtain ⟨m, rfl⟩ : ∃ m, n = m + 1 := ⟨n - 1, by omega⟩
    have hhb : hold = b := BitVec.eq_of_toNat_eq (by simpa using hk)
    subst hhb
    have hstop : ∀ x y : Word, divideLoop m x hold (hold >>> 1) y = ⟨y, x⟩ := by
      intro x y
      cases m with
      | zero => rfl
      | succ m =>
        unfold divideLoop
        rw [if_neg]
        rw [BitVec.le_def, BitVec.toNat_ushiftRight, Nat.shiftRight_eq_div_pow]
        omega
    have hqs : (q <<< 1).toNat = q.toNat * 2 := by
      rw [BitVec.toNat_shiftLeft, Nat.shiftLeft_eq, Nat.mod_eq_of_lt (by omega)]
    have hqo : ((q <<< 1) ||| 1).toNat = q.toNat * 2 + 1 := by
      rw [BitVec.toNat_or, hqs]
      show q.toNat * 2 ||| 1 = _
      rw [Nat.mul_comm, show (2 * q.toNat ||| 1) = 2 * q.toNat + 1 by
        have := Nat.two_pow_add_eq_or_of_lt (i := 1) (b := 1) (by omega) q.toNat
        simpa using this.symm]
    unfold divideLoop
    rw [if_pos (BitVec.le_refl _)]
    split
    · rename_i hle
      have hle' : hold.toNat ≤ a.toNat := by simpa [BitVec.le_def] using hle
      rw [hstop, hqo, subtractor_eq]
      have hd : a.toNat / hold.toNat = 1 := by
        apply Nat.div_eq_of_lt_le <;> omega
      have hm : a.toNat % hold.toNat = a.toNat - hold.toNat := by
        rw [Nat.mod_eq_sub_mod hle', Nat.mod_eq_of_lt (by omega)]
      rw [hd, hm]
      refine ⟨by simp, ?_⟩
      exact BitVec.toNat_sub_of_le hle
    · rename_i hle
      have hlt : a.toNat < hold.toNat := by simpa [BitVec.le_def] using hle
      rw [hstop, hqs, Nat.div_eq_of_lt hlt, Nat.mod_eq_of_lt hlt]
      simp
  | succ k ih =>
    obtain ⟨m, rfl⟩ : ∃ m, n = m + 1 := ⟨n - 1, by omega⟩
    have hge : b ≤ hold := by
      rw [BitVec.le_def, hk]; exact Nat.le_mul_of_pos_right _ (by positivity)
    have hhalf : (hold >>> 1).toNat = b.toNat * 2 ^ k := by
      rw [BitVec.toNat_ushiftRight, Nat.shiftRight_eq_div_pow, hk, Nat.pow_succ, ← Nat.mul_assoc]
      simp
    have hdbl : hold.toNat = 2 * (hold >>> 1).toNat := by
      rw [hhalf, hk, Nat.pow_succ]; ring
    have hpk : 2 ^ (k + 1 + 1) = 2 * 2 ^ (k + 1) := by rw [Nat.pow_succ]; ring
    have hp1 : 1 ≤ 2 ^ (k + 1) := Nat.one_le_two_pow
    rw [hpk] at hq
    have hqlt : 2 * q.toNat + 2 ≤ 2 ^ 32 := by
      have : (q.toNat + 1) * (2 * 1) ≤ (q.toNat + 1) * (2 * 2 ^ (k + 1)) :=
        Nat.mul_le_mul_left _ (Nat.mul_le_mul_left _ hp1)
      omega
    have hqs : (q <<< 1).toNat = q.toNat * 2 := by
      rw [BitVec.toNat_shiftLeft, Nat.shiftLeft_eq, Nat.mod_eq_of_lt (by omega)]
    have hqo : ((q <<< 1) ||| 1).toNat = q.toNat * 2 + 1 := by
      rw [BitVec.toNat_or, hqs]
      show q.toNat * 2 ||| 1 = _
      rw [Nat.mul_comm, show (2 * q.toNat ||| 1) = 2 * q.toNat + 1 by
        have := Nat.two_pow_add_eq_or_of_lt (i := 1) (b := 1) (by omega) q.toNat
        simpa using this.symm]
    have hqm : (q.toNat + 1) * (2 * 2 ^ (k + 1)) = (q.toNat * 2 + 1 + 1) * 2 ^ (k + 1) := by ring
    rw [hqm] at hq
    unfold divideLoop
    rw [if_pos hge]
    split
    · rename_i hle
      have hle' : hold.toNat ≤ a.toNat := by simpa [BitVec.le_def] using hle
      have hsub : (subtractor a hold).toNat = a.toNat - hold.toNat := by
        rw [subtractor_eq]; exact BitVec.toNat_sub_of_le hle
      obtain ⟨h1, h2⟩ := ih m (subtractor a hold) (hold >>> 1) ((q <<< 1) ||| 1) hhalf
        (by rw [hsub]; omega) (by omega) (by rw [hqo]; exact hq)
      rw [h1, h2, hqo, hsub, hk, hpk]
      have hmul : b.toNat * 2 ^ (k + 1) ≤ a.toNat := by rw [← hk]; exact hle'
      have ha' : a.toNat = (a.toNat - b.toNat * 2 ^ (k + 1)) + b.toNat * 2 ^ (k + 1) := by omega
      constructor
      · conv_rhs => rw [ha', Nat.add_mul_div_left _ _ hb0]
        ring
      · conv_rhs => rw [ha', Nat.add_mul_mod_self_left]
    · rename_i hle
      have hlt : a.toNat < hold.toNat := by simpa [BitVec.le_def] using hle
      obtain ⟨h1, h2⟩ := ih m a (hold >>> 1) (q <<< 1) hhalf (by omega) (by omega)
        (by rw [hqs]; exact Nat.le_trans (Nat.mul_le_mul_right _ (by omega)) hq)
      rw [h1, h2, hqs, hpk]
      exact ⟨by ring, rfl⟩

/-- R180 to R183: the restoring divider gives the floor quotient and the remainder for every `b` other than 0. -/
theorem divCore_eq (a b : Word) (hb : b ≠ 0) : divCore a b = ⟨a / b, a % b⟩ := by
  obtain ⟨k, -, hk, h1, h2⟩ := alignLoop_spec 31 a b b 0 (by simp) hb rfl
  obtain ⟨h3, h4⟩ := divideLoop_spec 32 k a b (alignLoop 31 a b) 0 h1 hb h2 (by omega)
    (by simpa using Nat.pow_le_pow_right (n := 2) (by omega) (show k + 1 ≤ 32 by omega))
  have hq : (divCore a b).q = a / b := by
    apply BitVec.eq_of_toNat_eq; rw [divCore, h3, BitVec.toNat_udiv]; simp
  have hr : (divCore a b).r = a % b := by
    apply BitVec.eq_of_toNat_eq; rw [divCore, h4, BitVec.toNat_umod]
  cases hd : divCore a b
  rw [hd] at hq hr
  subst hq hr
  rfl

/-- R200: the trial value starts at the highest power of 4 not exceeding a positive `n`. -/
theorem trialLoop_pos (k : Nat) (n one : Word) (ho : one.toNat = 4 ^ k) (hn : 0 < n.toNat) (hlt : n.toNat < 4 ^ (k + 1)) :
    ∃ j, j ≤ k ∧ (trialLoop (k + 1) n one).toNat = 4 ^ j ∧ n.toNat < 4 ^ (j + 1) := by
  induction k generalizing one with
  | zero =>
    refine ⟨0, Nat.le_refl _, ?_, hlt⟩
    unfold trialLoop
    rw [if_neg, ho]
    rw [BitVec.lt_def, ho]; simp; omega
  | succ k ih =>
    unfold trialLoop
    split
    · rename_i h
      rw [BitVec.lt_def, ho] at h
      have hs : (one >>> 2).toNat = 4 ^ k := by
        rw [BitVec.toNat_ushiftRight, Nat.shiftRight_eq_div_pow, ho, Nat.pow_succ]; simp
      obtain ⟨j, h1, h2, h3⟩ := ih (one >>> 2) hs h
      exact ⟨j, by omega, h2, h3⟩
    · exact ⟨k + 1, Nat.le_refl _, ho, hlt⟩

/-- R200: the trial value reaches 0 when n = 0. -/
theorem trialLoop_zero (k : Nat) (one : Word) (ho : one.toNat = 4 ^ k) : trialLoop (k + 1) 0 one = 0 := by
  have hpos : (0 : Word) < one := by
    rw [BitVec.lt_def, ho]; exact Nat.pow_pos (by omega)
  induction k generalizing one with
  | zero =>
    have : one = 1 := BitVec.eq_of_toNat_eq (by simpa using ho)
    subst this
    rfl
  | succ k ih =>
    unfold trialLoop
    rw [if_pos hpos]
    have hs : (one >>> 2).toNat = 4 ^ k := by
      rw [BitVec.toNat_ushiftRight, Nat.shiftRight_eq_div_pow, ho, Nat.pow_succ]; simp
    exact ih _ hs (by rw [BitVec.lt_def, hs]; exact Nat.pow_pos (by omega))

/-- R200: with no trial value left the main loop returns the root. -/
theorem sqrtLoop_done (k : Nat) (n root : Word) : sqrtLoop k n 0 root = root := by
  cases k <;> simp [sqrtLoop]

/-- R200, R202: before the digit of weight 4^m, the root found is `y` and `n` is what is left of `N`; the rest of the loop completes
the floor square root of `N`. -/
theorem sqrtLoop_spec (m k : Nat) (N y : Nat) (n one root : Word) (ho : one.toNat = 4 ^ m) (hk : m + 1 ≤ k)
    (hroot : root.toNat = y * 4 ^ (m + 1)) (hN : n.toNat + y ^ 2 * 4 ^ (m + 1) = N)
    (hlt : n.toNat < (2 * y + 1) * 4 ^ (m + 1)) (hy : (y + 1) * 2 ^ (m + 1) ≤ 2 ^ 16) :
    (sqrtLoop k n one root).toNat ^ 2 ≤ N ∧ N < ((sqrtLoop k n one root).toNat + 1) ^ 2 ∧
      (sqrtLoop k n one root).toNat < 2 ^ 16 := by
  induction m generalizing k y n one root with
  | zero =>
    obtain ⟨k, rfl⟩ : ∃ k', k = k' + 1 := ⟨k - 1, by omega⟩
    have hone : one = 1 := BitVec.eq_of_toNat_eq (by simpa using ho)
    subst hone
    simp only [Nat.zero_add, Nat.pow_one] at hroot hN hlt hy
    have ht : (adder root 1).toNat = 4 * y + 1 := by
      rw [adder_eq, BitVec.toNat_add, hroot]
      show (y * 4 + 1) % 2 ^ 32 = _
      omega
    have hs : ((1 : Word) >>> 2) = 0 := rfl
    have hh : (root >>> 1).toNat = 2 * y := by
      rw [BitVec.toNat_ushiftRight, Nat.shiftRight_eq_div_pow, hroot]; omega
    unfold sqrtLoop
    rw [if_neg (by decide)]
    simp only [hs, sqrtLoop_done]
    split
    · rename_i h
      rw [BitVec.le_def, ht] at h
      have hr : (adder (root >>> 1) 1).toNat = 2 * y + 1 := by
        rw [adder_eq, BitVec.toNat_add, hh]
        show (2 * y + 1) % 2 ^ 32 = _
        omega
      rw [hr]
      refine ⟨?_, ?_, by omega⟩ <;> subst hN <;> nlinarith
    · rename_i h
      rw [BitVec.le_def, ht] at h
      rw [hh]
      refine ⟨?_, ?_, by omega⟩ <;> subst hN <;> nlinarith
  | succ m ih =>
    obtain ⟨k, rfl⟩ : ∃ k', k = k' + 1 := ⟨k - 1, by omega⟩
    have hp : 0 < 4 ^ m := Nat.pow_pos (by omega)
    have h4 : 4 ^ (m + 1) = 4 * 4 ^ m := by rw [Nat.pow_succ]; ring
    have h16 : 4 ^ (m + 1 + 1) = 16 * 4 ^ m := by rw [Nat.pow_succ, Nat.pow_succ]; ring
    have hsq : 4 ^ (m + 1 + 1) = 2 ^ (m + 1 + 1) * 2 ^ (m + 1 + 1) := by
      rw [show (4 : Nat) = 2 * 2 from rfl, Nat.mul_pow]
    have hbound : y * 4 ^ (m + 1 + 1) + 4 ^ (m + 1 + 1) ≤ 2 ^ 32 := by
      have h1 : 2 ^ (m + 1 + 1) ≤ 2 ^ 16 := Nat.le_trans (Nat.le_mul_of_pos_left _ (by omega)) hy
      calc y * 4 ^ (m + 1 + 1) + 4 ^ (m + 1 + 1) = (y + 1) * 2 ^ (m + 1 + 1) * 2 ^ (m + 1 + 1) := by rw [hsq]; ring
        _ ≤ 2 ^ 16 * 2 ^ 16 := Nat.mul_le_mul hy h1
        _ = 2 ^ 32 := by norm_num
    have ht : (adder root one).toNat = (4 * y + 1) * 4 ^ (m + 1) := by
      rw [adder_eq, BitVec.toNat_add, hroot, ho, Nat.mod_eq_of_lt]
      · rw [h16, h4]; ring
      · rw [h16] at hbound ⊢; rw [h4]; omega
    have hs : (one >>> 2).toNat = 4 ^ m := by
      rw [BitVec.toNat_ushiftRight, Nat.shiftRight_eq_div_pow, ho, h4]; omega
    have hh : (root >>> 1).toNat = 2 * y * 4 ^ (m + 1) := by
      rw [BitVec.toNat_ushiftRight, Nat.shiftRight_eq_div_pow, hroot, h16, h4]
      rw [show y * (16 * 4 ^ m) = 2 * (2 * y * (4 * 4 ^ m)) by ring]
      omega
    have hne : one ≠ 0 := by
      intro h; rw [h] at ho; rw [h4] at ho; simp at ho
    have hy2 : ∀ z, z ≤ 2 * y + 1 → (z + 1) * 2 ^ (m + 1) ≤ 2 ^ 16 := by
      intro z hz
      refine Nat.le_trans (Nat.mul_le_mul_right _ (show z + 1 ≤ 2 * (y + 1) by omega)) ?_
      rw [Nat.pow_succ] at hy
      calc 2 * (y + 1) * 2 ^ (m + 1) = (y + 1) * (2 ^ (m + 1) * 2) := by ring
        _ ≤ 2 ^ 16 := hy
    unfold sqrtLoop
    rw [if_neg hne]
    simp only []
    split
    · rename_i h
      have h' := h
      rw [BitVec.le_def, ht] at h'
      have hsub : (subtractor n (adder root one)).toNat = n.toNat - (4 * y + 1) * 4 ^ (m + 1) := by
        rw [subtractor_eq, BitVec.toNat_sub_of_le h, ht]
      have hr : (adder (root >>> 1) one).toNat = (2 * y + 1) * 4 ^ (m + 1) := by
        rw [adder_eq, BitVec.toNat_add, hh, ho, Nat.mod_eq_of_lt]
        · ring
        · rw [h16] at hbound; rw [h4]
          have : y * (4 * 4 ^ m) * 2 ≤ y * (16 * 4 ^ m) := by nlinarith
          nlinarith
      refine ih k (2 * y + 1) _ _ _ hs (by omega) hr ?_ ?_ (hy2 _ (Nat.le_refl _))
      · rw [hsub, ← hN, h16, h4]
        rw [h4] at h'
        have e : (2 * y + 1) ^ 2 * (4 * 4 ^ m) = y ^ 2 * (16 * 4 ^ m) + (4 * y + 1) * (4 * 4 ^ m) := by ring
        rw [e]; omega
      · rw [hsub]
        rw [h16] at hlt
        rw [h4] at h' ⊢
        have e : (2 * y + 1) * (16 * 4 ^ m) = (2 * (2 * y + 1) + 1) * (4 * 4 ^ m) + (4 * y + 1) * (4 * 4 ^ m) := by ring
        omega
    · rename_i h
      rw [BitVec.le_def, ht] at h
      refine ih k (2 * y) _ _ _ hs (by omega) hh ?_ ?_ (hy2 _ (by omega))
      · rw [← hN, h16, h4]; ring
      · have e : 2 * (2 * y) + 1 = 4 * y + 1 := by ring
        rw [e]; omega

/-- R200, R202: the square root is the floor square root, at most 0xFFFF. -/
theorem sqrtCore_spec (n : Word) :
    (sqrtCore n).toNat ^ 2 ≤ n.toNat ∧ n.toNat < ((sqrtCore n).toNat + 1) ^ 2 ∧ (sqrtCore n).toNat < 2 ^ 16 := by
  have ho : ((1 : Word) <<< 30).toNat = 4 ^ 15 := by decide
  unfold sqrtCore
  by_cases hz : n = 0
  · subst hz
    rw [show (16 : Nat) = 15 + 1 from rfl, trialLoop_zero 15 _ ho, sqrtLoop_done]; decide
  · have hpos : 0 < n.toNat := by
      rcases Nat.eq_zero_or_pos n.toNat with h | h
      · exact absurd (BitVec.eq_of_toNat_eq h) hz
      · exact h
    obtain ⟨j, h1, h2, h3⟩ := trialLoop_pos 15 n _ ho hpos (by have := n.isLt; simpa using this)
    refine sqrtLoop_spec j 16 n.toNat 0 n _ 0 h2 (by omega) (by simp) (by simp) (by simpa using h3) ?_
    simpa using Nat.pow_le_pow_right (n := 2) (by omega) (show j + 1 ≤ 16 by omega)

/-- R212, R214: `k` iterations suffice below 2^(k+1), and count the floor binary logarithm. -/
theorem binLogLoop_spec (k : Nat) (n c : Word) (hn : n.toNat < 2 ^ (k + 1)) (hc : c.toNat + k < 2 ^ 32) :
    (binLogLoop k n c).toNat = c.toNat + Nat.log 2 n.toNat := by
  induction k generalizing n c with
  | zero =>
    have : Nat.log 2 n.toNat = 0 := Nat.log_of_lt (by simpa using hn)
    simp [binLogLoop, this]
  | succ k ih =>
    unfold binLogLoop
    split
    · rename_i h
      have h2 : 2 ≤ n.toNat := by simpa [BitVec.le_def] using h
      have hc1 : (adder c 1).toNat = c.toNat + 1 := by
        rw [adder_eq, BitVec.toNat_add]
        show (c.toNat + 1) % 2 ^ 32 = _
        omega
      have hs : (n >>> 1).toNat = n.toNat / 2 := by
        rw [BitVec.toNat_ushiftRight, Nat.shiftRight_eq_div_pow]
      rw [ih _ _ (by rw [hs]; omega) (by omega), hc1, hs, Nat.log_of_one_lt_of_le (by omega) h2]
      omega
    · rename_i h
      have h2 : n.toNat < 2 := by simpa [BitVec.le_def] using h
      rw [Nat.log_of_lt h2]; simp

/-- R212, R213: the binary logarithm is the floor logarithm to base 2, and 0 of 0. -/
theorem binLogCore_spec (n : Word) : (binLogCore n).toNat = Nat.log 2 n.toNat := by
  rw [binLogCore, binLogLoop_spec 31 n 0 n.isLt (by decide)]; simp

end Sys2Proof.Machine
end

