-- ==== Sys2Proof/Laws/Operands.lean ====
section
/-! SUPPORT. What each operand form and each converter computes, once, in the word's own arithmetic (41_representation.md). -/

namespace Sys2Proof.Machine

/-- R126: two's-complement conversion negates modulo 2^32. -/
theorem twosComplement_eq (v : Word) : twosComplement v = -v := by
  rw [twosComplement, adder_eq]
  exact (BitVec.neg_eq_not_add v).symm

/-- R127, R133: the magnitude of a word. -/
theorem magnitude_eq (v : Word) : magnitude v = if v.getLsbD 31 then -v else v := by
  rw [magnitude, multiplier_eq, signWord]
  split
  · show v * (-1) = -v
    ring
  · split
    · rename_i h; simp [h]
    · show v * 1 = v
      ring

/-- R132: what conv gives for each format. -/
theorem conv_eq (f : Fmt) (v : Word) :
    conv f v = match f with
      | .rep .noSign          => some v
      | .rep .onesComplement  => some (~~~v)
      | .rep .signedMagnitude => some (if v.getLsbD 31 then -v else v)
      | .rep .twosComplement  => some (-v)
      | .rep .excess | .rep .base | .rep .biased | .rep .zigZag | .rep .any | .rep .all | .other _ => none := by
  cases f with
  | rep r => cases r <;> simp [conv, onesComplement, twosComplement_eq, magnitude_eq]
  | other c => rfl

/-- R132: conv raises UNSUPPORTED_FORMAT for both operands or for neither. -/
theorem conv_none_iff (f : Fmt) (v w : Word) : conv f v = none ↔ conv f w = none := by
  cases f with
  | rep r => cases r <;> simp [conv]
  | other c => simp [conv]

/-- R140: a format-taking command either completes on the prepared pair or ends with UNSUPPORTED_FORMAT. -/
theorem prepared_cases (f : Fmt) (k : Word → Word → State → State) (s : State) :
    (∃ l r, conv f s.latch.a = some l ∧ conv f s.latch.b = some r ∧ prepared f k s = .next (k l r s).succeed) ∨
    (conv f s.latch.a = none ∧ prepared f k s = .next (s.raise .unsupportedFormat)) := by
  unfold prepared
  cases ha : conv f s.latch.a with
  | none => exact .inr ⟨rfl, rfl⟩
  | some l =>
    cases hb : conv f s.latch.b with
    | none => rw [(conv_none_iff f s.latch.b s.latch.a).mp hb] at ha; cases ha
    | some r => exact .inl ⟨l, r, rfl, rfl, rfl⟩

/-- R88: a companion command has its effect, or is an illegal command without the companion unit. -/
theorem companion_cases (s : State) (o : Host.Outcome State Fault Refusal) :
    (s.cfg.hasCompanion = true ∧ companion s o = o) ∨
    (s.cfg.hasCompanion = false ∧ companion s o = .next (s.raise .illegalCommand)) := by
  unfold companion
  cases s.cfg.hasCompanion <;> simp

/-- R128: the sign bit of a word, masked out. -/
theorem and_signBitMask (v : Word) : v &&& signBitMask = if v.getLsbD 31 then signBitMask else 0 :=
  BitVec.and_twoPow v 31

/-- R129: the arithmetic shift by 31 replicates the sign bit. -/
theorem sshiftRight_31 (v : Word) : v.sshiftRight 31 = if v.getLsbD 31 then BitVec.allOnes 32 else 0 := by
  have small : ∀ x : Word, x.msb = false → x >>> 31 = 0 := by
    intro x hx
    apply BitVec.eq_of_toNat_eq
    rw [BitVec.msb_eq_decide] at hx
    have hx' : x.toNat < 2 ^ 31 := by simpa using hx
    rw [BitVec.toNat_ushiftRight, Nat.shiftRight_eq_div_pow, Nat.div_eq_of_lt hx']; rfl
  rw [← BitVec.msb_eq_getLsbD_last v]
  by_cases h : v.msb = true
  · rw [if_pos h, BitVec.sshiftRight_eq_of_msb_true h, small _ (by simp [h])]
    rfl
  · have h' : v.msb = false := by simpa using h
    rw [if_neg h, BitVec.sshiftRight_eq_of_msb_false h', small v h']

/-- R129: subtracting 1 and complementing negates. -/
theorem add_ones_xor_ones (v : Word) : (v + BitVec.allOnes 32) ^^^ BitVec.allOnes 32 = -v := by
  rw [BitVec.xor_allOnes, show BitVec.allOnes 32 = -(1 : Word) from rfl, BitVec.not_eq_neg_add]
  show -(v + -1) - 1 = -v
  ring

/-- R129: two's-complement to sign-magnitude: a non-negative word passes, a negative one gives its magnitude under the sign bit. -/
theorem tcToSm_eq (v : Word) : tcToSm v = if v.getLsbD 31 then -v ||| signBitMask else v := by
  unfold tcToSm
  simp only [adder_eq, sshiftRight_31, and_signBitMask]
  by_cases h : v.getLsbD 31 = true
  · simp only [h, if_true, add_ones_xor_ones]
  · simp only [h]; simp

/-- R130: sign-magnitude to two's-complement: a word without its sign bit passes, another gives its negated magnitude under the
sign bit. -/
theorem smToTc_eq (v : Word) : smToTc v = if v.getLsbD 31 then -(v &&& magnitudeMask) ||| signBitMask else v := by
  unfold smToTc
  simp only [adder_eq, and_signBitMask]
  by_cases h : v.getLsbD 31 = true
  · simp only [h, if_true]
    congr 1
    exact (BitVec.neg_eq_not_add _).symm
  · simp only [h]; simp

/-- R122 to R124: what the probe finds for each host. -/
theorem probe_eq (h : HostRep) : probe h = match h with
    | .twosComplement => some .twosComplement
    | .onesComplement => some .onesComplement
    | .signedMagnitude => some .signedMagnitude
    | .other => none := by
  cases h <;> decide

end Sys2Proof.Machine
end

