-- ==== Sys2Proof/Laws/Exec.lean ====
section
/-! SUPPORT. What a command can do when it completes, said once for all commands. -/

namespace Sys2Proof.Machine

/-- R141 to R146: a companion command on the prepared pair writes RES, or ends with an error. -/
theorem logic_cases (f : Fmt) (op : Word → Word → Word) (s : State) :
    (∃ e, companion s (prepared f (fun l r s => s.writeRes (op l r)) s) = .next (s.raise e)) ∨
    (∃ v, companion s (prepared f (fun l r s => s.writeRes (op l r)) s) = .next (s.writeRes v).succeed) := by
  rcases companion_cases s (prepared f (fun l r s => s.writeRes (op l r)) s) with ⟨_, h⟩ | ⟨_, h⟩
  · rw [h]
    rcases prepared_cases f (fun l r s => s.writeRes (op l r)) s with ⟨l, r, _, _, h'⟩ | ⟨_, h'⟩
    · exact .inr ⟨_, h'⟩
    · exact .inl ⟨_, h'⟩
  · exact .inl ⟨_, h⟩

/-- Everything a command can do when it completes: one of the two completions, what it writes before it, and which commands may. -/
theorem exec_cases (i : Instr) (s : State) :
    (∃ e, exec i s = .next (s.raise e)) ∨
    (∃ v, exec i s = .next (s.writeRes v).succeed) ∨
    ((i = .smag ∨ ∃ f, i = .prep f) ∧ ∃ v w, exec i s = .next ((s.writeRes v).writeAux w).succeed) ∨
    (∃ p r, i = .bsrInit p r ∧ s.cfg.hasCompanion = true ∧
      exec i s = .next (s.setCursor s.latch.a p r (elementCount s.latch.b)).succeed) ∨
    (i = .bsrNext ∧ s.cfg.hasCompanion = true ∧ s.bsrrem = 0 ∧ exec i s = .next (s.writeAux 0).succeed) ∨
    (i = .bsrNext ∧ s.cfg.hasCompanion = true ∧ s.bsrrem ≠ 0 ∧ exec i s = .next (endOutOfRange s)) ∨
    (i = .bsrNext ∧ s.cfg.hasCompanion = true ∧ s.bsrrem ≠ 0 ∧ s.bsrbyte.toNat < s.cfg.bufLen.val ∧
      exec i s = .next (produceElement (s.bufByte s.bsrbyte.toNat) (s.afterBufRead s.bsrbyte.toNat))) ∨
    (i = .repget ∧ s.cfg.hasCompanion = true ∧ s.repstat.valid = false ∧ s.repstat.fatal = false ∧
      exec i s = .next (runProbe s)) := by
  cases i with
  | bsrInit p r =>
    rcases companion_cases s (.next (s.setCursor s.latch.a p r (elementCount s.latch.b)).succeed) with ⟨hc, h⟩ | ⟨hc, h⟩
    · exact .inr (.inr (.inr (.inl ⟨p, r, rfl, hc, h⟩)))
    · exact .inl ⟨_, h⟩
  | bsrNext =>
    simp only [exec, execBsrNext]
    split
    · rename_i h0
      rcases companion_cases s (.next (s.writeAux 0).succeed) with ⟨hc, h⟩ | ⟨hc, h⟩
      · exact .inr (.inr (.inr (.inr (.inl ⟨trivial, hc, h0, h⟩))))
      · exact .inl ⟨_, h⟩
    · rename_i h0
      split
      · rename_i h1
        rcases companion_cases s (.next (endOutOfRange s)) with ⟨hc, h⟩ | ⟨hc, h⟩
        · exact .inr (.inr (.inr (.inr (.inr (.inl ⟨trivial, hc, h0, h⟩)))))
        · exact .inl ⟨_, h⟩
      · rename_i h1
        rcases companion_cases s (.next (produceElement (s.bufByte s.bsrbyte.toNat) (s.afterBufRead s.bsrbyte.toNat))) with ⟨hc, h⟩ | ⟨hc, h⟩
        · exact .inr (.inr (.inr (.inr (.inr (.inr (.inl ⟨trivial, hc, h0, by omega, h⟩))))))
        · exact .inl ⟨_, h⟩
  | repget =>
    simp only [exec, execRepget]
    rcases companion_cases s (if s.repstat.valid then .next (s.writeRes (s.repstat.rep.setWidth 32)).succeed
      else if s.repstat.fatal then .next (s.raise .unsupportedArchitecture) else .next (runProbe s)) with ⟨hc, h⟩ | ⟨hc, h⟩
    · rw [h]
      cases hv : s.repstat.valid with
      | true => exact .inr (.inl ⟨_, rfl⟩)
      | false =>
        cases hf : s.repstat.fatal with
        | true => exact .inl ⟨_, rfl⟩
        | false => exact .inr (.inr (.inr (.inr (.inr (.inr (.inr ⟨trivial, hc, rfl, rfl, rfl⟩))))))
    · exact .inl ⟨_, h⟩
  | smag => exact .inr (.inr (.inl ⟨.inl rfl, _, _, rfl⟩))
  | prep f =>
    rcases prepared_cases f (fun l r s => (s.writeRes l).writeAux r) s with ⟨l, r, _, _, h⟩ | ⟨_, h⟩
    · exact .inr (.inr (.inl ⟨.inr ⟨f, rfl⟩, l, r, h⟩))
    · exact .inl ⟨_, h⟩
  | div =>
    simp only [exec, execDiv]; split
    · exact .inl ⟨_, rfl⟩
    · exact .inr (.inl ⟨_, rfl⟩)
  | mod =>
    simp only [exec, execMod]; split
    · exact .inl ⟨_, rfl⟩
    · exact .inr (.inl ⟨_, rfl⟩)
  | log =>
    simp only [exec, execLog]; split
    · exact .inr (.inl ⟨_, rfl⟩)
    · exact .inl ⟨_, rfl⟩
  | bxor =>
    simp only [exec, execBxor]
    rcases companion_cases s (.next (s.writeRes (boolWord (boolXor (truth s.latch.a) (truth s.latch.b)))).succeed) with ⟨_, h⟩ | ⟨_, h⟩
    · exact .inr (.inl ⟨_, h⟩)
    · exact .inl ⟨_, h⟩
  | and f => exact (logic_cases f _ s).imp id .inl
  | or f => exact (logic_cases f _ s).imp id .inl
  | xor f => exact (logic_cases f _ s).imp id .inl
  | nand f => exact (logic_cases f _ s).imp id .inl
  | nor f => exact (logic_cases f _ s).imp id .inl
  | xxor f => exact (logic_cases f _ s).imp id .inl
  | ones => exact .inr (.inl ⟨_, rfl⟩)
  | twos => exact .inr (.inl ⟨_, rfl⟩)
  | tc2sm => exact .inr (.inl ⟨_, rfl⟩)
  | sm2tc => exact .inr (.inl ⟨_, rfl⟩)
  | add => exact .inr (.inl ⟨_, rfl⟩)
  | sub => exact .inr (.inl ⟨_, rfl⟩)
  | mul => exact .inr (.inl ⟨_, rfl⟩)
  | sqrt => exact .inr (.inl ⟨_, rfl⟩)
  | log2 => exact .inr (.inl ⟨_, rfl⟩)
end Sys2Proof.Machine
end

