-- ==== Sys2Proof/Laws/Logarithm.lean ====
section
/-! SUPPORT. What the general-base logarithm of 47_logarithm.md R210 computes, once. -/

namespace Sys2Proof.Machine

/-- R210, R214: for a base of 2 or more, `k` divisions suffice below base^(k+1) and count the floor logarithm. -/
theorem logLoop_spec (k : Nat) (n base c : Word) (hb : 2 ≤ base.toNat) (hn : n.toNat < base.toNat ^ (k + 1))
    (hc : c.toNat + k < 2 ^ 32) :
    ∃ r, logLoop k n base c = .ok r ∧ r.toNat = c.toNat + Nat.log base.toNat n.toNat := by
  induction k generalizing n c with
  | zero => exact ⟨c, rfl, by rw [Nat.log_of_lt (by simpa using hn)]; simp⟩
  | succ k ih =>
    have h0 : base ≠ 0 := by intro h; subst h; simp at hb
    have h1 : base ≠ 1 := by intro h; subst h; simp at hb
    unfold logLoop
    split
    · rename_i h
      have hle : base.toNat ≤ n.toNat := by simpa [BitVec.le_def] using h
      rw [divCore_eq _ _ h0]
      simp only []
      have hc1 : (adder c 1).toNat = c.toNat + 1 := by
        rw [adder_eq, BitVec.toNat_add]
        show (c.toNat + 1) % 2 ^ 32 = _
        omega
      obtain ⟨r, hr, hr2⟩ := ih (n / base) (adder c 1)
        (by rw [BitVec.toNat_udiv]; exact Nat.div_lt_of_lt_mul (by rw [← Nat.pow_succ']; exact hn)) (by omega)
      refine ⟨r, hr, ?_⟩
      rw [hr2, hc1, BitVec.toNat_udiv, Nat.log_of_one_lt_of_le (by omega) hle]
      omega
    · rename_i h
      have hlt : n.toNat < base.toNat := by simpa [BitVec.le_def] using h
      exact ⟨c, rfl, by rw [Nat.log_of_lt hlt]; simp⟩

/-- R210, R211: for a base of 2 or more the logarithm is the floor logarithm, and 0 of 0. -/
theorem logCore_spec (n base : Word) (hb : 2 ≤ base.toNat) :
    ∃ r, logCore n base = .ok r ∧ r.toNat = Nat.log base.toNat n.toNat := by
  have hn : n.toNat < base.toNat ^ (31 + 1) :=
    Nat.lt_of_lt_of_le n.isLt (Nat.pow_le_pow_left hb 32)
  obtain ⟨r, h1, h2⟩ := logLoop_spec 31 n base 0 hb hn (by decide)
  exact ⟨r, h1, by simpa using h2⟩

/-- R210: base 0 raises DIVIDE_BY_ZERO for every `n`. -/
theorem logCore_zero (n : Word) : logCore n 0 = .error .divideByZero := by
  simp [logCore, logLoop]

/-- R210: base 1 raises LOG_BASE_ONE unless n = 0. -/
theorem logCore_one (n : Word) : logCore n 1 = if n = 0 then .ok 0 else .error .logBaseOne := by
  unfold logCore logLoop
  by_cases h : n = 0
  · subst h; rfl
  · have : (1 : Word) ≤ n := by
      rw [BitVec.le_def]
      rcases Nat.eq_zero_or_pos n.toNat with h' | h'
      · exact absurd (BitVec.eq_of_toNat_eq h') h
      · exact h'
    rw [if_pos this, if_neg h]; rfl

end Sys2Proof.Machine
end

