-- ==== Sys2Proof/Laws/Memory.lean ====
section
/-! SUPPORT. The laws of the buffer: a read after a write, and the canonical form. -/

namespace Sys2Proof.Machine

/-- R63, R64: a byte read after it is written is the byte written. -/
theorem read_write_same (m : Memory) (i : Nat) (v : Byte) : (Memory.write m i v).read i = some v := by
  induction m with
  | nil => simp [Memory.write, Memory.read]
  | cons c rest ih =>
    unfold Memory.write
    split
    · simp [Memory.read]
    · split
      · simp [Memory.read]
      · rename_i h1 h2
        simp only [Memory.read]
        rw [if_neg (fun h => h2 h.symm), ih]

/-- R64: a write leaves every other byte alone. -/
theorem read_write_other (m : Memory) (i j : Nat) (v : Byte) (h : j ≠ i) : (Memory.write m i v).read j = m.read j := by
  induction m with
  | nil => simp [Memory.write, Memory.read, Ne.symm h]
  | cons c rest ih =>
    unfold Memory.write
    split
    · simp [Memory.read, Ne.symm h]
    · split
      · rename_i h2
        simp [Memory.read, Ne.symm h, ← h2]
      · simp only [Memory.read, ih]

/-- The canonical form, one entry at a time: the indices after an entry are above it. -/
theorem wf_cons (c : Host.Cell) (m : Memory) :
    Memory.wf (c :: m) = true ↔ (∀ d ∈ m, c.1 < d.1) ∧ Memory.wf m = true := by
  induction m generalizing c with
  | nil => simp [Memory.wf]
  | cons d rest ih =>
    simp only [Memory.wf, Bool.and_eq_true, decide_eq_true_eq, ih d]
    constructor
    · rintro ⟨h1, h2, h3⟩
      refine ⟨fun e he => ?_, h2, h3⟩
      rcases List.mem_cons.mp he with rfl | he
      · exact h1
      · exact Nat.lt_trans h1 (h2 e he)
    · rintro ⟨h1, h2, h3⟩
      exact ⟨h1 d (List.mem_cons_self), h2, h3⟩

/-- What a write can put into the list: the byte written, or an entry that was there. -/
theorem mem_write (m : Memory) (i : Nat) (v : Byte) (c : Host.Cell) (h : c ∈ Memory.write m i v) : c = (i, v) ∨ c ∈ m := by
  induction m with
  | nil => simpa [Memory.write] using h
  | cons d rest ih =>
    unfold Memory.write at h
    split at h
    · simpa using h
    · split at h
      · rcases List.mem_cons.mp h with h | h
        · exact .inl h
        · exact .inr (List.mem_cons_of_mem _ h)
      · rcases List.mem_cons.mp h with h | h
        · exact .inr (by simp [h])
        · rcases ih h with h | h
          · exact .inl h
          · exact .inr (List.mem_cons_of_mem _ h)

/-- A write keeps the canonical form. -/
theorem wf_write (m : Memory) (i : Nat) (v : Byte) (h : Memory.wf m = true) : Memory.wf (Memory.write m i v) = true := by
  induction m with
  | nil => rfl
  | cons c rest ih =>
    obtain ⟨h1, h2⟩ := (wf_cons c rest).mp h
    unfold Memory.write
    split
    · rename_i hlt
      refine (wf_cons _ _).mpr ⟨fun d hd => ?_, h⟩
      rcases List.mem_cons.mp hd with rfl | hd
      · exact hlt
      · exact Nat.lt_trans hlt (h1 d hd)
    · split
      · rename_i _ heq
        exact (wf_cons _ _).mpr ⟨fun d hd => heq ▸ h1 d hd, h2⟩
      · rename_i hn hne
        refine (wf_cons _ _).mpr ⟨fun d hd => ?_, ih h2⟩
        rcases mem_write _ _ _ _ hd with rfl | hd
        · show c.1 < i
          omega
        · exact h1 d hd

/-- The reset buffer is in canonical form. -/
theorem wf_reset (cfg : Config) : Memory.wf (State.resetOf cfg).buf = true := rfl

end Sys2Proof.Machine
end

