-- ==== Sys2Proof/Laws/PerInstr.lean ====
section
/-! SUPPORT. For every command, as syntax: the fields of its word (30_encoding.md R80, R83). -/

namespace Sys2Proof.Laws.Encoding

/-- R80, R83: a command's word has its OP value, its FMT field and no reserved bit. -/
def Statement (i : Instr) : Prop :=
  cmdOp (encode i) = i.opcode ∧ cmdFmt (encode i) = i.fmtField ∧ cmdRsv (encode i) = 0

theorem bsrInit (bitoff : BitVec 3) (rev : Bool) : Statement (.bsrInit bitoff rev) := by
  simp [Statement, encode, Instr.fmtField]

theorem bsrNext : Statement .bsrNext := by
  simp [Statement, encode, Instr.fmtField]

theorem repget : Statement .repget := by
  simp [Statement, encode, Instr.fmtField]

theorem ones : Statement .ones := by
  simp [Statement, encode, Instr.fmtField]

theorem twos : Statement .twos := by
  simp [Statement, encode, Instr.fmtField]

theorem smag : Statement .smag := by
  simp [Statement, encode, Instr.fmtField]

theorem tc2sm : Statement .tc2sm := by
  simp [Statement, encode, Instr.fmtField]

theorem sm2tc : Statement .sm2tc := by
  simp [Statement, encode, Instr.fmtField]

theorem prep (fmt : Fmt) : Statement (.prep fmt) := by
  simp [Statement, encode, Instr.fmtField]

theorem and (fmt : Fmt) : Statement (.and fmt) := by
  simp [Statement, encode, Instr.fmtField]

theorem or (fmt : Fmt) : Statement (.or fmt) := by
  simp [Statement, encode, Instr.fmtField]

theorem xor (fmt : Fmt) : Statement (.xor fmt) := by
  simp [Statement, encode, Instr.fmtField]

theorem nand (fmt : Fmt) : Statement (.nand fmt) := by
  simp [Statement, encode, Instr.fmtField]

theorem nor (fmt : Fmt) : Statement (.nor fmt) := by
  simp [Statement, encode, Instr.fmtField]

theorem xxor (fmt : Fmt) : Statement (.xxor fmt) := by
  simp [Statement, encode, Instr.fmtField]

theorem bxor : Statement .bxor := by
  simp [Statement, encode, Instr.fmtField]

theorem add : Statement .add := by
  simp [Statement, encode, Instr.fmtField]

theorem sub : Statement .sub := by
  simp [Statement, encode, Instr.fmtField]

theorem mul : Statement .mul := by
  simp [Statement, encode, Instr.fmtField]

theorem div : Statement .div := by
  simp [Statement, encode, Instr.fmtField]

theorem mod : Statement .mod := by
  simp [Statement, encode, Instr.fmtField]

theorem sqrt : Statement .sqrt := by
  simp [Statement, encode, Instr.fmtField]

theorem log : Statement .log := by
  simp [Statement, encode, Instr.fmtField]

theorem log2 : Statement .log2 := by
  simp [Statement, encode, Instr.fmtField]

end Sys2Proof.Laws.Encoding
end

