-- ==== Sys2Proof/Laws/State.lean ====
section
/-! SUPPORT. What each named update of the state does to each field, so that no proof unfolds a record update. -/

namespace Sys2Proof.Machine

section
variable (v : Word) (s : State)

@[simp] theorem writeRes_cfg : (s.writeRes v).cfg = s.cfg := rfl
@[simp] theorem writeRes_opa : (s.writeRes v).opa = s.opa := rfl
@[simp] theorem writeRes_opaWritten : (s.writeRes v).opaWritten = s.opaWritten := rfl
@[simp] theorem writeRes_opb : (s.writeRes v).opb = s.opb := rfl
@[simp] theorem writeRes_opbWritten : (s.writeRes v).opbWritten = s.opbWritten := rfl
@[simp] theorem writeRes_cmd : (s.writeRes v).cmd = s.cmd := rfl
@[simp] theorem writeRes_res : (s.writeRes v).res = v := rfl
@[simp] theorem writeRes_resWritten : (s.writeRes v).resWritten = true := rfl
@[simp] theorem writeRes_aux : (s.writeRes v).aux = s.aux := rfl
@[simp] theorem writeRes_auxWritten : (s.writeRes v).auxWritten = s.auxWritten := rfl
@[simp] theorem writeRes_status : (s.writeRes v).status = s.status := rfl
@[simp] theorem writeRes_repstat : (s.writeRes v).repstat = s.repstat := rfl
@[simp] theorem writeRes_bsrstat : (s.writeRes v).bsrstat = s.bsrstat := rfl
@[simp] theorem writeRes_bsrbyte : (s.writeRes v).bsrbyte = s.bsrbyte := rfl
@[simp] theorem writeRes_bsrrem : (s.writeRes v).bsrrem = s.bsrrem := rfl
@[simp] theorem writeRes_buf : (s.writeRes v).buf = s.buf := rfl
@[simp] theorem writeRes_latch : (s.writeRes v).latch = s.latch := rfl
@[simp] theorem writeRes_remaining : (s.writeRes v).remaining = s.remaining := rfl
@[simp] theorem writeRes_host : (s.writeRes v).host = s.host := rfl
@[simp] theorem writeRes_owner : (s.writeRes v).owner = s.owner := rfl
@[simp] theorem writeRes_answer : (s.writeRes v).answer = s.answer := rfl
@[simp] theorem writeRes_draws : (s.writeRes v).draws = s.draws := rfl

end

section
variable (v : Word) (s : State)

@[simp] theorem writeAux_cfg : (s.writeAux v).cfg = s.cfg := rfl
@[simp] theorem writeAux_opa : (s.writeAux v).opa = s.opa := rfl
@[simp] theorem writeAux_opaWritten : (s.writeAux v).opaWritten = s.opaWritten := rfl
@[simp] theorem writeAux_opb : (s.writeAux v).opb = s.opb := rfl
@[simp] theorem writeAux_opbWritten : (s.writeAux v).opbWritten = s.opbWritten := rfl
@[simp] theorem writeAux_cmd : (s.writeAux v).cmd = s.cmd := rfl
@[simp] theorem writeAux_res : (s.writeAux v).res = s.res := rfl
@[simp] theorem writeAux_resWritten : (s.writeAux v).resWritten = s.resWritten := rfl
@[simp] theorem writeAux_aux : (s.writeAux v).aux = v := rfl
@[simp] theorem writeAux_auxWritten : (s.writeAux v).auxWritten = true := rfl
@[simp] theorem writeAux_status : (s.writeAux v).status = s.status := rfl
@[simp] theorem writeAux_repstat : (s.writeAux v).repstat = s.repstat := rfl
@[simp] theorem writeAux_bsrstat : (s.writeAux v).bsrstat = s.bsrstat := rfl
@[simp] theorem writeAux_bsrbyte : (s.writeAux v).bsrbyte = s.bsrbyte := rfl
@[simp] theorem writeAux_bsrrem : (s.writeAux v).bsrrem = s.bsrrem := rfl
@[simp] theorem writeAux_buf : (s.writeAux v).buf = s.buf := rfl
@[simp] theorem writeAux_latch : (s.writeAux v).latch = s.latch := rfl
@[simp] theorem writeAux_remaining : (s.writeAux v).remaining = s.remaining := rfl
@[simp] theorem writeAux_host : (s.writeAux v).host = s.host := rfl
@[simp] theorem writeAux_owner : (s.writeAux v).owner = s.owner := rfl
@[simp] theorem writeAux_answer : (s.writeAux v).answer = s.answer := rfl
@[simp] theorem writeAux_draws : (s.writeAux v).draws = s.draws := rfl

end

section
variable (s : State)

@[simp] theorem succeed_cfg : s.succeed.cfg = s.cfg := rfl
@[simp] theorem succeed_opa : s.succeed.opa = s.opa := rfl
@[simp] theorem succeed_opaWritten : s.succeed.opaWritten = s.opaWritten := rfl
@[simp] theorem succeed_opb : s.succeed.opb = s.opb := rfl
@[simp] theorem succeed_opbWritten : s.succeed.opbWritten = s.opbWritten := rfl
@[simp] theorem succeed_cmd : s.succeed.cmd = s.cmd := rfl
@[simp] theorem succeed_res : s.succeed.res = s.res := rfl
@[simp] theorem succeed_resWritten : s.succeed.resWritten = s.resWritten := rfl
@[simp] theorem succeed_aux : s.succeed.aux = s.aux := rfl
@[simp] theorem succeed_auxWritten : s.succeed.auxWritten = s.auxWritten := rfl
@[simp] theorem succeed_status : s.succeed.status = { busy := false, done := true, err := false, ecode := 0, sticky := s.status.sticky } := rfl
@[simp] theorem succeed_repstat : s.succeed.repstat = s.repstat := rfl
@[simp] theorem succeed_bsrstat : s.succeed.bsrstat = s.bsrstat := rfl
@[simp] theorem succeed_bsrbyte : s.succeed.bsrbyte = s.bsrbyte := rfl
@[simp] theorem succeed_bsrrem : s.succeed.bsrrem = s.bsrrem := rfl
@[simp] theorem succeed_buf : s.succeed.buf = s.buf := rfl
@[simp] theorem succeed_latch : s.succeed.latch = s.latch := rfl
@[simp] theorem succeed_remaining : s.succeed.remaining = 0 := rfl
@[simp] theorem succeed_host : s.succeed.host = s.host := rfl
@[simp] theorem succeed_owner : s.succeed.owner = s.owner := rfl
@[simp] theorem succeed_answer : s.succeed.answer = s.answer := rfl
@[simp] theorem succeed_draws : s.succeed.draws = s.draws := rfl

end

section
variable (e : ErrorCode) (s : State)

@[simp] theorem raise_cfg : (s.raise e).cfg = s.cfg := rfl
@[simp] theorem raise_opa : (s.raise e).opa = s.opa := rfl
@[simp] theorem raise_opaWritten : (s.raise e).opaWritten = s.opaWritten := rfl
@[simp] theorem raise_opb : (s.raise e).opb = s.opb := rfl
@[simp] theorem raise_opbWritten : (s.raise e).opbWritten = s.opbWritten := rfl
@[simp] theorem raise_cmd : (s.raise e).cmd = s.cmd := rfl
@[simp] theorem raise_res : (s.raise e).res = s.res := rfl
@[simp] theorem raise_resWritten : (s.raise e).resWritten = s.resWritten := rfl
@[simp] theorem raise_aux : (s.raise e).aux = s.aux := rfl
@[simp] theorem raise_auxWritten : (s.raise e).auxWritten = s.auxWritten := rfl
@[simp] theorem raise_status : (s.raise e).status = { busy := false, done := true, err := true, ecode := e.number, sticky := true } := rfl
@[simp] theorem raise_repstat : (s.raise e).repstat = s.repstat := rfl
@[simp] theorem raise_bsrstat : (s.raise e).bsrstat = s.bsrstat := rfl
@[simp] theorem raise_bsrbyte : (s.raise e).bsrbyte = s.bsrbyte := rfl
@[simp] theorem raise_bsrrem : (s.raise e).bsrrem = s.bsrrem := rfl
@[simp] theorem raise_buf : (s.raise e).buf = s.buf := rfl
@[simp] theorem raise_latch : (s.raise e).latch = s.latch := rfl
@[simp] theorem raise_remaining : (s.raise e).remaining = 0 := rfl
@[simp] theorem raise_host : (s.raise e).host = s.host := rfl
@[simp] theorem raise_owner : (s.raise e).owner = s.owner := rfl
@[simp] theorem raise_answer : (s.raise e).answer = s.answer := rfl
@[simp] theorem raise_draws : (s.raise e).draws = s.draws := rfl

end

section
variable (r : RepStat) (s : State)

@[simp] theorem setRepstat_cfg : (s.setRepstat r).cfg = s.cfg := rfl
@[simp] theorem setRepstat_opa : (s.setRepstat r).opa = s.opa := rfl
@[simp] theorem setRepstat_opaWritten : (s.setRepstat r).opaWritten = s.opaWritten := rfl
@[simp] theorem setRepstat_opb : (s.setRepstat r).opb = s.opb := rfl
@[simp] theorem setRepstat_opbWritten : (s.setRepstat r).opbWritten = s.opbWritten := rfl
@[simp] theorem setRepstat_cmd : (s.setRepstat r).cmd = s.cmd := rfl
@[simp] theorem setRepstat_res : (s.setRepstat r).res = s.res := rfl
@[simp] theorem setRepstat_resWritten : (s.setRepstat r).resWritten = s.resWritten := rfl
@[simp] theorem setRepstat_aux : (s.setRepstat r).aux = s.aux := rfl
@[simp] theorem setRepstat_auxWritten : (s.setRepstat r).auxWritten = s.auxWritten := rfl
@[simp] theorem setRepstat_status : (s.setRepstat r).status = s.status := rfl
@[simp] theorem setRepstat_repstat : (s.setRepstat r).repstat = r := rfl
@[simp] theorem setRepstat_bsrstat : (s.setRepstat r).bsrstat = s.bsrstat := rfl
@[simp] theorem setRepstat_bsrbyte : (s.setRepstat r).bsrbyte = s.bsrbyte := rfl
@[simp] theorem setRepstat_bsrrem : (s.setRepstat r).bsrrem = s.bsrrem := rfl
@[simp] theorem setRepstat_buf : (s.setRepstat r).buf = s.buf := rfl
@[simp] theorem setRepstat_latch : (s.setRepstat r).latch = s.latch := rfl
@[simp] theorem setRepstat_remaining : (s.setRepstat r).remaining = s.remaining := rfl
@[simp] theorem setRepstat_host : (s.setRepstat r).host = s.host := rfl
@[simp] theorem setRepstat_owner : (s.setRepstat r).owner = s.owner := rfl
@[simp] theorem setRepstat_answer : (s.setRepstat r).answer = s.answer := rfl
@[simp] theorem setRepstat_draws : (s.setRepstat r).draws = s.draws := rfl

end

section
variable (y : Word) (p : BitVec 3) (rev : Bool) (n : Word) (s : State)

@[simp] theorem setCursor_cfg : (s.setCursor y p rev n).cfg = s.cfg := rfl
@[simp] theorem setCursor_opa : (s.setCursor y p rev n).opa = s.opa := rfl
@[simp] theorem setCursor_opaWritten : (s.setCursor y p rev n).opaWritten = s.opaWritten := rfl
@[simp] theorem setCursor_opb : (s.setCursor y p rev n).opb = s.opb := rfl
@[simp] theorem setCursor_opbWritten : (s.setCursor y p rev n).opbWritten = s.opbWritten := rfl
@[simp] theorem setCursor_cmd : (s.setCursor y p rev n).cmd = s.cmd := rfl
@[simp] theorem setCursor_res : (s.setCursor y p rev n).res = s.res := rfl
@[simp] theorem setCursor_resWritten : (s.setCursor y p rev n).resWritten = s.resWritten := rfl
@[simp] theorem setCursor_aux : (s.setCursor y p rev n).aux = s.aux := rfl
@[simp] theorem setCursor_auxWritten : (s.setCursor y p rev n).auxWritten = s.auxWritten := rfl
@[simp] theorem setCursor_status : (s.setCursor y p rev n).status = s.status := rfl
@[simp] theorem setCursor_repstat : (s.setCursor y p rev n).repstat = s.repstat := rfl
@[simp] theorem setCursor_bsrstat : (s.setCursor y p rev n).bsrstat = { active := decide (n ≠ 0), rev := rev, bit := p } := rfl
@[simp] theorem setCursor_bsrbyte : (s.setCursor y p rev n).bsrbyte = y := rfl
@[simp] theorem setCursor_bsrrem : (s.setCursor y p rev n).bsrrem = n := rfl
@[simp] theorem setCursor_buf : (s.setCursor y p rev n).buf = s.buf := rfl
@[simp] theorem setCursor_latch : (s.setCursor y p rev n).latch = s.latch := rfl
@[simp] theorem setCursor_remaining : (s.setCursor y p rev n).remaining = s.remaining := rfl
@[simp] theorem setCursor_host : (s.setCursor y p rev n).host = s.host := rfl
@[simp] theorem setCursor_owner : (s.setCursor y p rev n).owner = s.owner := rfl
@[simp] theorem setCursor_answer : (s.setCursor y p rev n).answer = s.answer := rfl
@[simp] theorem setCursor_draws : (s.setCursor y p rev n).draws = s.draws := rfl

end

section
variable (s : State)

@[simp] theorem drawn_cfg : s.drawn.cfg = s.cfg := rfl
@[simp] theorem drawn_opa : s.drawn.opa = s.opa := rfl
@[simp] theorem drawn_opaWritten : s.drawn.opaWritten = s.opaWritten := rfl
@[simp] theorem drawn_opb : s.drawn.opb = s.opb := rfl
@[simp] theorem drawn_opbWritten : s.drawn.opbWritten = s.opbWritten := rfl
@[simp] theorem drawn_cmd : s.drawn.cmd = s.cmd := rfl
@[simp] theorem drawn_res : s.drawn.res = s.res := rfl
@[simp] theorem drawn_resWritten : s.drawn.resWritten = s.resWritten := rfl
@[simp] theorem drawn_aux : s.drawn.aux = s.aux := rfl
@[simp] theorem drawn_auxWritten : s.drawn.auxWritten = s.auxWritten := rfl
@[simp] theorem drawn_status : s.drawn.status = s.status := rfl
@[simp] theorem drawn_repstat : s.drawn.repstat = s.repstat := rfl
@[simp] theorem drawn_bsrstat : s.drawn.bsrstat = s.bsrstat := rfl
@[simp] theorem drawn_bsrbyte : s.drawn.bsrbyte = s.bsrbyte := rfl
@[simp] theorem drawn_bsrrem : s.drawn.bsrrem = s.bsrrem := rfl
@[simp] theorem drawn_buf : s.drawn.buf = s.buf := rfl
@[simp] theorem drawn_latch : s.drawn.latch = s.latch := rfl
@[simp] theorem drawn_remaining : s.drawn.remaining = s.remaining := rfl
@[simp] theorem drawn_host : s.drawn.host = s.host := rfl
@[simp] theorem drawn_owner : s.drawn.owner = s.owner := rfl
@[simp] theorem drawn_answer : s.drawn.answer = s.answer := rfl
@[simp] theorem drawn_draws : s.drawn.draws = s.draws + 1 := rfl

end

section
variable (w : Word) (s : State)

@[simp] theorem issue_cfg : (s.issue w).cfg = s.cfg := rfl
@[simp] theorem issue_opa : (s.issue w).opa = s.opa := rfl
@[simp] theorem issue_opaWritten : (s.issue w).opaWritten = s.opaWritten := rfl
@[simp] theorem issue_opb : (s.issue w).opb = s.opb := rfl
@[simp] theorem issue_opbWritten : (s.issue w).opbWritten = s.opbWritten := rfl
@[simp] theorem issue_cmd : (s.issue w).cmd = w := rfl
@[simp] theorem issue_res : (s.issue w).res = s.res := rfl
@[simp] theorem issue_resWritten : (s.issue w).resWritten = s.resWritten := rfl
@[simp] theorem issue_aux : (s.issue w).aux = s.aux := rfl
@[simp] theorem issue_auxWritten : (s.issue w).auxWritten = s.auxWritten := rfl
@[simp] theorem issue_status : (s.issue w).status = { s.status with busy := true, done := false } := rfl
@[simp] theorem issue_repstat : (s.issue w).repstat = s.repstat := rfl
@[simp] theorem issue_bsrstat : (s.issue w).bsrstat = s.bsrstat := rfl
@[simp] theorem issue_bsrbyte : (s.issue w).bsrbyte = s.bsrbyte := rfl
@[simp] theorem issue_bsrrem : (s.issue w).bsrrem = s.bsrrem := rfl
@[simp] theorem issue_buf : (s.issue w).buf = s.buf := rfl
@[simp] theorem issue_latch : (s.issue w).latch = { word := w, a := s.opa, b := s.opb } := rfl
@[simp] theorem issue_remaining : (s.issue w).remaining = latencyOf s.cfg w s.opa s.opb := rfl
@[simp] theorem issue_host : (s.issue w).host = s.host := rfl
@[simp] theorem issue_owner : (s.issue w).owner = s.owner := rfl
@[simp] theorem issue_answer : (s.issue w).answer = s.answer := rfl
@[simp] theorem issue_draws : (s.issue w).draws = s.draws := rfl

end

section
variable (w : Word) (s : State)

@[simp] theorem rejectWord_cfg : (s.rejectWord w).cfg = s.cfg := rfl
@[simp] theorem rejectWord_opa : (s.rejectWord w).opa = s.opa := rfl
@[simp] theorem rejectWord_opaWritten : (s.rejectWord w).opaWritten = s.opaWritten := rfl
@[simp] theorem rejectWord_opb : (s.rejectWord w).opb = s.opb := rfl
@[simp] theorem rejectWord_opbWritten : (s.rejectWord w).opbWritten = s.opbWritten := rfl
@[simp] theorem rejectWord_cmd : (s.rejectWord w).cmd = w := rfl
@[simp] theorem rejectWord_res : (s.rejectWord w).res = s.res := rfl
@[simp] theorem rejectWord_resWritten : (s.rejectWord w).resWritten = s.resWritten := rfl
@[simp] theorem rejectWord_aux : (s.rejectWord w).aux = s.aux := rfl
@[simp] theorem rejectWord_auxWritten : (s.rejectWord w).auxWritten = s.auxWritten := rfl
@[simp] theorem rejectWord_status : (s.rejectWord w).status = { busy := false, done := true, err := true, ecode := 5, sticky := true } := rfl
@[simp] theorem rejectWord_repstat : (s.rejectWord w).repstat = s.repstat := rfl
@[simp] theorem rejectWord_bsrstat : (s.rejectWord w).bsrstat = s.bsrstat := rfl
@[simp] theorem rejectWord_bsrbyte : (s.rejectWord w).bsrbyte = s.bsrbyte := rfl
@[simp] theorem rejectWord_bsrrem : (s.rejectWord w).bsrrem = s.bsrrem := rfl
@[simp] theorem rejectWord_buf : (s.rejectWord w).buf = s.buf := rfl
@[simp] theorem rejectWord_latch : (s.rejectWord w).latch = s.latch := rfl
@[simp] theorem rejectWord_remaining : (s.rejectWord w).remaining = 0 := rfl
@[simp] theorem rejectWord_host : (s.rejectWord w).host = s.host := rfl
@[simp] theorem rejectWord_owner : (s.rejectWord w).owner = s.owner := rfl
@[simp] theorem rejectWord_answer : (s.rejectWord w).answer = s.answer := rfl
@[simp] theorem rejectWord_draws : (s.rejectWord w).draws = s.draws := rfl

end

section
variable (v : Word) (s : State)

@[simp] theorem answerWith_cfg : (s.answerWith v).cfg = s.cfg := rfl
@[simp] theorem answerWith_opa : (s.answerWith v).opa = s.opa := rfl
@[simp] theorem answerWith_opaWritten : (s.answerWith v).opaWritten = s.opaWritten := rfl
@[simp] theorem answerWith_opb : (s.answerWith v).opb = s.opb := rfl
@[simp] theorem answerWith_opbWritten : (s.answerWith v).opbWritten = s.opbWritten := rfl
@[simp] theorem answerWith_cmd : (s.answerWith v).cmd = s.cmd := rfl
@[simp] theorem answerWith_res : (s.answerWith v).res = s.res := rfl
@[simp] theorem answerWith_resWritten : (s.answerWith v).resWritten = s.resWritten := rfl
@[simp] theorem answerWith_aux : (s.answerWith v).aux = s.aux := rfl
@[simp] theorem answerWith_auxWritten : (s.answerWith v).auxWritten = s.auxWritten := rfl
@[simp] theorem answerWith_status : (s.answerWith v).status = s.status := rfl
@[simp] theorem answerWith_repstat : (s.answerWith v).repstat = s.repstat := rfl
@[simp] theorem answerWith_bsrstat : (s.answerWith v).bsrstat = s.bsrstat := rfl
@[simp] theorem answerWith_bsrbyte : (s.answerWith v).bsrbyte = s.bsrbyte := rfl
@[simp] theorem answerWith_bsrrem : (s.answerWith v).bsrrem = s.bsrrem := rfl
@[simp] theorem answerWith_buf : (s.answerWith v).buf = s.buf := rfl
@[simp] theorem answerWith_latch : (s.answerWith v).latch = s.latch := rfl
@[simp] theorem answerWith_remaining : (s.answerWith v).remaining = s.remaining := rfl
@[simp] theorem answerWith_host : (s.answerWith v).host = s.host := rfl
@[simp] theorem answerWith_owner : (s.answerWith v).owner = s.owner := rfl
@[simp] theorem answerWith_answer : (s.answerWith v).answer = some v := rfl
@[simp] theorem answerWith_draws : (s.answerWith v).draws = s.draws := rfl

end

section
variable (s : State)

@[simp] theorem answerFree_cfg : s.answerFree.cfg = s.cfg := rfl
@[simp] theorem answerFree_opa : s.answerFree.opa = s.opa := rfl
@[simp] theorem answerFree_opaWritten : s.answerFree.opaWritten = s.opaWritten := rfl
@[simp] theorem answerFree_opb : s.answerFree.opb = s.opb := rfl
@[simp] theorem answerFree_opbWritten : s.answerFree.opbWritten = s.opbWritten := rfl
@[simp] theorem answerFree_cmd : s.answerFree.cmd = s.cmd := rfl
@[simp] theorem answerFree_res : s.answerFree.res = s.res := rfl
@[simp] theorem answerFree_resWritten : s.answerFree.resWritten = s.resWritten := rfl
@[simp] theorem answerFree_aux : s.answerFree.aux = s.aux := rfl
@[simp] theorem answerFree_auxWritten : s.answerFree.auxWritten = s.auxWritten := rfl
@[simp] theorem answerFree_status : s.answerFree.status = s.status := rfl
@[simp] theorem answerFree_repstat : s.answerFree.repstat = s.repstat := rfl
@[simp] theorem answerFree_bsrstat : s.answerFree.bsrstat = s.bsrstat := rfl
@[simp] theorem answerFree_bsrbyte : s.answerFree.bsrbyte = s.bsrbyte := rfl
@[simp] theorem answerFree_bsrrem : s.answerFree.bsrrem = s.bsrrem := rfl
@[simp] theorem answerFree_buf : s.answerFree.buf = s.buf := rfl
@[simp] theorem answerFree_latch : s.answerFree.latch = s.latch := rfl
@[simp] theorem answerFree_remaining : s.answerFree.remaining = s.remaining := rfl
@[simp] theorem answerFree_host : s.answerFree.host = s.host := rfl
@[simp] theorem answerFree_owner : s.answerFree.owner = s.owner := rfl
@[simp] theorem answerFree_answer : s.answerFree.answer = some (Config.freeWord s.draws) := rfl
@[simp] theorem answerFree_draws : s.answerFree.draws = s.draws + 1 := rfl

end

section
variable (i : Nat) (s : State)

@[simp] theorem afterBufRead_cfg : (s.afterBufRead i).cfg = s.cfg := by unfold State.afterBufRead; split <;> rfl
@[simp] theorem afterBufRead_opa : (s.afterBufRead i).opa = s.opa := by unfold State.afterBufRead; split <;> rfl
@[simp] theorem afterBufRead_opaWritten : (s.afterBufRead i).opaWritten = s.opaWritten := by unfold State.afterBufRead; split <;> rfl
@[simp] theorem afterBufRead_opb : (s.afterBufRead i).opb = s.opb := by unfold State.afterBufRead; split <;> rfl
@[simp] theorem afterBufRead_opbWritten : (s.afterBufRead i).opbWritten = s.opbWritten := by unfold State.afterBufRead; split <;> rfl
@[simp] theorem afterBufRead_cmd : (s.afterBufRead i).cmd = s.cmd := by unfold State.afterBufRead; split <;> rfl
@[simp] theorem afterBufRead_res : (s.afterBufRead i).res = s.res := by unfold State.afterBufRead; split <;> rfl
@[simp] theorem afterBufRead_resWritten : (s.afterBufRead i).resWritten = s.resWritten := by unfold State.afterBufRead; split <;> rfl
@[simp] theorem afterBufRead_aux : (s.afterBufRead i).aux = s.aux := by unfold State.afterBufRead; split <;> rfl
@[simp] theorem afterBufRead_auxWritten : (s.afterBufRead i).auxWritten = s.auxWritten := by unfold State.afterBufRead; split <;> rfl
@[simp] theorem afterBufRead_status : (s.afterBufRead i).status = s.status := by unfold State.afterBufRead; split <;> rfl
@[simp] theorem afterBufRead_repstat : (s.afterBufRead i).repstat = s.repstat := by unfold State.afterBufRead; split <;> rfl
@[simp] theorem afterBufRead_bsrstat : (s.afterBufRead i).bsrstat = s.bsrstat := by unfold State.afterBufRead; split <;> rfl
@[simp] theorem afterBufRead_bsrbyte : (s.afterBufRead i).bsrbyte = s.bsrbyte := by unfold State.afterBufRead; split <;> rfl
@[simp] theorem afterBufRead_bsrrem : (s.afterBufRead i).bsrrem = s.bsrrem := by unfold State.afterBufRead; split <;> rfl
@[simp] theorem afterBufRead_buf : (s.afterBufRead i).buf = s.buf := by unfold State.afterBufRead; split <;> rfl
@[simp] theorem afterBufRead_latch : (s.afterBufRead i).latch = s.latch := by unfold State.afterBufRead; split <;> rfl
@[simp] theorem afterBufRead_remaining : (s.afterBufRead i).remaining = s.remaining := by unfold State.afterBufRead; split <;> rfl
@[simp] theorem afterBufRead_host : (s.afterBufRead i).host = s.host := by unfold State.afterBufRead; split <;> rfl
@[simp] theorem afterBufRead_owner : (s.afterBufRead i).owner = s.owner := by unfold State.afterBufRead; split <;> rfl
@[simp] theorem afterBufRead_answer : (s.afterBufRead i).answer = s.answer := by unfold State.afterBufRead; split <;> rfl

/-- R63: a byte the host has written is read as it is and draws nothing. -/
theorem bufRead_written (y : Byte) (h : s.buf.read i = some y) : s.bufByte i = y ∧ s.afterBufRead i = s := by
  simp [State.bufByte, State.afterBufRead, h]

/-- R63: a byte the host has not written is one free draw. -/
theorem bufRead_unwritten (h : s.buf.read i = none) : s.bufByte i = Config.freeByte s.draws ∧ s.afterBufRead i = s.drawn := by
  simp [State.bufByte, State.afterBufRead, h]

end

end Sys2Proof.Machine
end

