-- ==== Sys2Proof/Laws/Step.lean ====
section
/-! SUPPORT. What one step can do, said once: which event it takes, what a cycle does, and what a host access does. -/

namespace Sys2Proof.Machine

/-- A step takes the oldest event, or lets a cycle pass where none is pending. -/
theorem step_cases (s : State) :
    (s.host = [] ∧ step s = clock s) ∨
    (∃ rest, s.host = .cycle :: rest ∧ step s = clock { s with host := rest }) ∨
    (∃ rest, s.host = .reset :: rest ∧ step s = .next { s with host := rest }.assertReset) ∨
    (∃ a rest, s.host = .access a :: rest ∧ step s = hostAccess a { s with host := rest }) := by
  cases h : s.host with
  | nil => exact .inl ⟨rfl, by simp [step, h]⟩
  | cons e rest =>
    cases e with
    | access a => exact .inr (.inr (.inr ⟨a, rest, rfl, by simp [step, h]⟩))
    | cycle => exact .inr (.inl ⟨rest, rfl, by simp [step, h]⟩)
    | reset => exact .inr (.inr (.inl ⟨rest, rfl, by simp [step, h]⟩))

/-- R27: a cycle does nothing to an idle block, completes a command in its last cycle, or brings it one cycle nearer. -/
theorem clock_cases (s : State) :
    (s.remaining = 0 ∧ clock s = .next s) ∨
    (s.remaining = 1 ∧ clock s = completeCommand s) ∨
    (∃ n, s.remaining = n + 2 ∧ clock s = .next { s with remaining := n + 1 }) := by
  unfold clock
  split
  · rename_i h; exact .inl ⟨h, rfl⟩
  · rename_i h; exact .inr (.inl ⟨h, rfl⟩)
  · rename_i n h; exact .inr (.inr ⟨n, h, rfl⟩)

/-- R27, R87: the command in flight is the one its word decodes to; a word that is not legal is an illegal command. -/
theorem completeCommand_cases (s : State) :
    (∃ i, decode s.cfg.hasCompanion s.latch.word = .ok i ∧ completeCommand s = exec i s) ∨
    (∃ e, decode s.cfg.hasCompanion s.latch.word = .error e ∧ completeCommand s = .next (s.raise .illegalCommand)) := by
  unfold completeCommand
  cases h : decode s.cfg.hasCompanion s.latch.word with
  | ok i => exact .inl ⟨i, rfl, rfl⟩
  | error e => exact .inr ⟨e, rfl, rfl⟩

/-- R68: a read of a register changes nothing but the answer and the count of draws. -/
theorem readRegister_frame (r : Reg) (s : State) :
    ∃ v n, readRegister r s = { s with answer := v, draws := n } := by
  cases r <;> simp only [readRegister, readOperand, readResult, readCompanion] <;> (repeat' split) <;>
    exact ⟨_, _, rfl⟩

/-- R68: a read of a buffer byte changes nothing but the answer and the count of draws. -/
theorem readBufWindow_frame (i : Nat) (s : State) :
    ∃ v n, readBufWindow i s = { s with answer := v, draws := n } := by
  unfold readBufWindow State.afterBufRead
  (repeat' split) <;> exact ⟨_, _, rfl⟩

/-- R61, R62, R68: a host read answers, changing nothing but the answer and the count of draws, or is a host contract violation. -/
theorem hostRead_cases (t : Target) (bytes : Nat) (s : State) :
    (∃ v n, hostRead t bytes s = .next { s with answer := v, draws := n }) ∨ ∃ f, hostRead t bytes s = .fault f := by
  cases t with
  | misaligned => exact .inr ⟨_, rfl⟩
  | outside => exact .inr ⟨_, rfl⟩
  | reserved =>
    simp only [hostRead]; split
    · exact .inl ⟨_, _, rfl⟩
    · exact .inr ⟨_, rfl⟩
  | register r =>
    simp only [hostRead]; split
    · obtain ⟨v, n, h⟩ := readRegister_frame r s; exact .inl ⟨v, n, by rw [h]⟩
    · exact .inr ⟨_, rfl⟩
  | bufWindow i =>
    simp only [hostRead]; split
    · obtain ⟨v, n, h⟩ := readBufWindow_frame i s; exact .inl ⟨v, n, by rw [h]⟩
    · exact .inr ⟨_, rfl⟩

/-- R27, R86, R280: a CMD write to an idle block rejects an illegal word, starts a legal one, or is a violation. -/
theorem startCommand_cases (w : Word) (s : State) :
    (∃ e, decode s.cfg.hasCompanion w = .error e ∧ startCommand w s = .next (s.rejectWord w)) ∨
    (∃ i, decode s.cfg.hasCompanion w = .ok i ∧ operandsWritten i s = true ∧ startCommand w s = .next (s.issue w)) ∨
    (∃ i, decode s.cfg.hasCompanion w = .ok i ∧ operandsWritten i s = false ∧ startCommand w s = .fault .unwrittenOperand) := by
  unfold startCommand
  cases hd : decode s.cfg.hasCompanion w with
  | error e => exact .inl ⟨e, rfl, rfl⟩
  | ok i =>
    cases ho : operandsWritten i s with
    | true => exact .inr (.inl ⟨i, rfl, ho, by simp [ho]⟩)
    | false => exact .inr (.inr ⟨i, rfl, ho, by simp [ho]⟩)

/-- R21, R22, R27, R39, R62, R64: what a host write that is no violation can do. -/
theorem hostWrite_cases (t : Target) (bytes data : Nat) (s u : State) (h : hostWrite t bytes data s = .next u) :
    u = s ∨
    (∃ v, u = { s with opa := v, opaWritten := true }) ∨
    (∃ v, u = { s with opb := v, opbWritten := true }) ∨
    (∃ i v, hasBufByte i s = true ∧ s.status.busy = false ∧ u = { s with buf := s.buf.write i v }) ∨
    (∃ w, s.status.busy = false ∧ startCommand w s = .next u) := by
  cases t with
  | misaligned => cases h
  | outside => cases h
  | reserved =>
    simp only [hostWrite] at h; split at h
    · cases h; exact .inl rfl
    · cases h
  | register r =>
    simp only [hostWrite] at h; split at h
    · cases r <;> simp only [writeRegister] at h
      case opa => cases h; exact .inr (.inl ⟨_, rfl⟩)
      case opb => cases h; exact .inr (.inr (.inl ⟨_, rfl⟩))
      case cmd =>
        split at h
        · cases h
        · rename_i hb; exact .inr (.inr (.inr (.inr ⟨_, by simpa using hb, h⟩)))
      all_goals (cases h; exact .inl rfl)
    · cases h
  | bufWindow i =>
    simp only [hostWrite] at h; split at h
    · simp only [writeBufWindow] at h
      split at h
      · rename_i hh
        split at h
        · cases h
        · rename_i hb; cases h; exact .inr (.inr (.inr (.inl ⟨i, _, hh, by simpa using hb, rfl⟩)))
      · cases h; exact .inl rfl
    · cases h

/-- R68, R71, R76: a host access that is no violation is a read, which changes the answer and the count of draws, or a write, after the port
has passed to its agent. -/
theorem hostAccess_cases (a : Access) (s u : State) (h : hostAccess a s = .next u) :
    (∃ n v k, a.transfer = .read n ∧ u = { s with owner := if a.last then none else some a.agent, answer := v, draws := k }) ∨
    (∃ n d, a.transfer = .write n d ∧
      hostWrite (target s.cfg a.addr) n d { s with owner := if a.last then none else some a.agent } = .next u) := by
  unfold hostAccess at h
  split at h
  · cases h
  · cases ha : a.transfer with
    | read n =>
      simp only [ha] at h
      rcases hostRead_cases (target s.cfg a.addr) n { s with owner := if a.last then none else some a.agent } with ⟨v, k, h'⟩ | ⟨f, h'⟩
      · rw [h'] at h; cases h; exact .inl ⟨n, v, k, rfl, rfl⟩
      · rw [h'] at h; cases h
    | write n d => simp only [ha] at h; exact .inr ⟨n, d, rfl, h⟩

/-- R60: the offset of an address the window's base is added to. -/
theorem offsetOf_base (cfg : Config) (off : Nat) (h : off < 2 ^ 32) : offsetOf cfg (cfg.base + BitVec.ofNat 32 off) = off := by
  rw [offsetOf, show cfg.base + BitVec.ofNat 32 off - cfg.base = BitVec.ofNat 32 off by ring]
  simpa using h

end Sys2Proof.Machine
end

