-- ==== Sys2Proof/Tests/Slice0.lean ====
section
/-! SUPPORT. The model's own tests: well-formedness, decoding of words written out from 30_encoding.md, one step or two for each command
on vectors of 95_test_vectors.md, the host's accesses, and a witness for the hypotheses of each statement. -/

namespace Sys2Proof.Tests

open Sys2Proof.Machine Sys2Proof.Claims

/-! ## Helpers -/

/-- The block after reset with these latched operands. -/
def operands (a b : Word) : State := { State.reset with latch := { word := 0, a := a, b := b } }

/-- RES and AUX, where a command has written them, and STATUS. -/
def shown (o : Host.Outcome State Fault Refusal) : Option (Option Word × Option Word × Word) :=
  (nextOf o).map fun t =>
    (if t.resWritten then some t.res else none, if t.auxWritten then some t.aux else none, t.status.word)

/-- The cursor: BSRSTAT, BSRBYTE, BSRREM. -/
def cursor (o : Host.Outcome State Fault Refusal) : Option (Word × Word × Word) :=
  (nextOf o).map fun t => (t.bsrstat.word, t.bsrbyte, t.bsrrem)

/-- The fault an outcome stops with. -/
def faultOf : Host.Outcome State Fault Refusal → Option Fault
  | .fault f => some f
  | .next _ => none
  | .refused _ => none

/-- Bytes 0 and 1 of the buffer hold 0xA5 and 0x3C, and the cursor is at this byte and bit with `rem` elements left. -/
def reading (byte : Word) (bit : BitVec 3) (rev : Bool) (rem : Word) : State :=
  { State.reset with
    buf := [(0, 0xA5), (1, 0x3C)]
    bsrbyte := byte
    bsrrem := rem
    bsrstat := { active := decide (rem ≠ 0), rev := rev, bit := bit } }

/-- The block for another host. -/
def hosted (h : HostRep) : State := { State.reset with cfg := { Config.ofVectors with hostRep := h } }

/-- One access of agent 0, the last of its sequence, at an offset of the window. -/
def at_ (off : Nat) (tr : Transfer) : Access := { agent := 0, last := true, addr := BitVec.ofNat 32 off, transfer := tr }

/-- `s` with one access pending. -/
def asked (s : State) (off : Nat) (tr : Transfer) : State := { s with host := [.access (at_ off tr)] }

/-- OPA and OPB written by the host. -/
def loaded (a b : Word) : State := { State.reset with opa := a, opaWritten := true, opb := b, opbWritten := true }

/-- A block without the companion unit. -/
def bare : State := { State.reset with cfg := { Config.ofVectors with hasCompanion := false } }

/-- A block with a command in flight. -/
def running : State := (loaded 5 3).inLastCycle 0x30

/-! ## Well-formed commands: a format that names a code of R84 must use its name -/

theorem test_wf_refuses_assigned_code : (Instr.and (.other 0x04)).wf = false := by decide
theorem test_wf_refuses_code_zero : (Instr.prep (.other 0x00)).wf = false := by decide
theorem test_wf_accepts_unassigned_code : (Instr.prep (.other 0x03)).wf = true := by decide
theorem test_wf_accepts_named_code : (Instr.xxor (.rep .zigZag)).wf = true := by decide

/-! ## Decoding: one word for each command, written out from the fields of R80 and the OP values of R83 -/

theorem test_decode_reader :
    decode true 0b00000000000001000000000000000001 = .ok (.bsrInit 4 false) ∧
    decode true 0b00000000000011110000000000000001 = .ok (.bsrInit 7 true) ∧
    decode true 0b00000000000000000000000000000010 = .ok .bsrNext := by decide

theorem test_decode_representation :
    decode true 0b00000000000000000000000000010000 = .ok .repget ∧
    decode true 0b00000000000000000000000000010001 = .ok .ones ∧
    decode true 0b00000000000000000000000000010010 = .ok .twos ∧
    decode true 0b00000000000000000000000000010011 = .ok .smag ∧
    decode true 0b00000000000000000000000000010100 = .ok .tc2sm ∧
    decode true 0b00000000000000000000000000010101 = .ok .sm2tc := by decide

theorem test_decode_logic :
    decode true 0b00000000000000000000010000100000 = .ok (.prep (.rep .twosComplement)) ∧
    decode true 0b00000000000000000000000000100001 = .ok (.and (.rep .noSign)) ∧
    decode true 0b00000000000000000000000100100010 = .ok (.or (.rep .onesComplement)) ∧
    decode true 0b00000000000000000000001000100011 = .ok (.xor (.rep .signedMagnitude)) ∧
    decode true 0b00000000000000000000100000100100 = .ok (.nand (.rep .excess)) ∧
    decode true 0b00000000000000001111111100100101 = .ok (.nor (.rep .all)) ∧
    decode true 0b00000000000000000000001100100110 = .ok (.xxor (.other 3)) ∧
    decode true 0b00000000000000000000000000100111 = .ok .bxor := by decide

theorem test_decode_arithmetic :
    decode false 0b00000000000000000000000000110000 = .ok .add ∧
    decode false 0b00000000000000000000000000110001 = .ok .sub ∧
    decode false 0b00000000000000000000000000110010 = .ok .mul ∧
    decode false 0b00000000000000000000000000110011 = .ok .div ∧
    decode false 0b00000000000000000000000000110100 = .ok .mod ∧
    decode false 0b00000000000000000000000000110101 = .ok .sqrt ∧
    decode false 0b00000000000000000000000000110110 = .ok .log ∧
    decode false 0b00000000000000000000000000110111 = .ok .log2 := by decide

/-- 95_test_vectors.md E3 to E9, E12, E14, E16 to E20. -/
theorem test_decode_refuses :
    decode true 0x00000130 = .error .fmtNotZero ∧ decode true 0x80000030 = .error .reservedBits ∧
    decode true 0x00010030 = .error .bitoffRevNotZero ∧ decode true 0x00080030 = .error .bitoffRevNotZero ∧
    decode true 0x00000038 = .error .unassignedOp ∧ decode true 0x000000FF = .error .unassignedOp ∧
    decode true 0x00010020 = .error .bitoffRevNotZero ∧ decode false 0x00000021 = .error .companionAbsent ∧
    decode true 0x00000101 = .error .fmtNotZero ∧ decode true 0x00100001 = .error .reservedBits ∧
    decode true 0x00000427 = .error .fmtNotZero ∧ decode false 0x00000010 = .error .companionAbsent ∧
    decode false 0x00000002 = .error .companionAbsent := by decide

/-- R80, R83: the word of a command as the spec's vectors write it (V3.2, E15). -/
theorem test_encode : encode (.prep (.rep .twosComplement)) = 0x00000420 ∧ encode (.bsrInit 7 true) = 0x000F0001 := by decide

/-- R89: assembler text. -/
theorem test_asm :
    (Instr.prep (.other 0x03)).asm = "PREP.#03" ∧ (Instr.and (.rep .noSign)).asm = "AND.NS" ∧
    (Instr.bsrInit 6 true).asm = "BSR_INIT 6, R" ∧ Instr.add.asm = "ADD" := by decide

/-- A row's bits, as the table numbers them; a word of more than 32 bits is no command. -/
theorem test_decodeTableWord : decodeTableWord 32 0x36 = some .log ∧ decodeTableWord 40 0x100000036 = none := by decide

/-! ## Commands, on vectors of 95_test_vectors.md part 2 (the vector is named in each comment) -/

/-- B4, E15. -/
theorem test_bsrInit : cursor (exec (.bsrInit 4 false) (operands 0 16)) = some (0x41, 0, 16) := by decide
/-- B6: a negative count is an empty sequence. -/
theorem test_bsrInit_negative : cursor (exec (.bsrInit 0 false) (operands 0 0xFFFFFFFF)) = some (0, 0, 0) := by decide
/-- B12: reverse order takes bit 7-6 = 1 of 0x3C first. -/
theorem test_bsrNext_reverse :
    shown (exec .bsrNext (reading 1 6 true 10)) = some (some 0, some 1, 2) ∧
    cursor (exec .bsrNext (reading 1 7 true 9)) = some (0x03, 2, 8) := by decide
/-- B8 and B1: beyond the buffer, and after the end. -/
theorem test_bsrNext_ends :
    shown (exec .bsrNext (reading 5 0 false 3)) = some (none, none, 0x146) ∧
    cursor (exec .bsrNext (reading 5 0 false 3)) = some (0, 5, 0) ∧
    shown (exec .bsrNext (reading 0 0 false 0)) = some (none, some 0, 2) := by decide
/-- R1, R2, R3. -/
theorem test_repget :
    shown (exec .repget (hosted .twosComplement)) = some (some 4, none, 2) ∧
    shown (exec .repget (hosted .onesComplement)) = some (some 1, none, 2) ∧
    shown (exec .repget (hosted .signedMagnitude)) = some (some 2, none, 2) := by decide
/-- R4. -/
theorem test_repget_other :
    shown (exec .repget (hosted .other)) = some (none, none, 0x116) ∧
    (nextOf (exec .repget (hosted .other))).map (fun t => t.repstat.word) = some 2 := by decide
/-- V2.3. -/
theorem test_ones : shown (exec .ones (operands 0x0000000F 0)) = some (some 0xFFFFFFF0, none, 2) := by decide
/-- V2.6, V2.7. -/
theorem test_twos :
    shown (exec .twos (operands 5 0)) = some (some 0xFFFFFFFB, none, 2) ∧
    shown (exec .twos (operands 0x80000000 0)) = some (some 0x80000000, none, 2) := by decide
/-- V2.11, V2.13. -/
theorem test_smag :
    shown (exec .smag (operands 0xFFFFFFFB 0)) = some (some 5, some 0xFFFFFFFF, 2) ∧
    shown (exec .smag (operands 0x80000000 0)) = some (some 0x80000000, some 0xFFFFFFFF, 2) := by decide +kernel
/-- V2.17, V2.20. -/
theorem test_tc2sm :
    shown (exec .tc2sm (operands 0xFFFFFFFB 0)) = some (some 0x80000005, none, 2) ∧
    shown (exec .tc2sm (operands 0x80000000 0)) = some (some 0x80000000, none, 2) := by decide
/-- V2.23, V2.26. -/
theorem test_sm2tc :
    shown (exec .sm2tc (operands 5 0)) = some (some 5, none, 2) ∧
    shown (exec .sm2tc (operands 0xFFFFFFFF 0)) = some (some 0x80000001, none, 2) := by decide
/-- V3.2. -/
theorem test_prep : shown (exec (.prep (.rep .twosComplement)) (operands 5 3)) = some (some 0xFFFFFFFB, some 0xFFFFFFFD, 2) := by decide
/-- V3.7. -/
theorem test_prep_unsupported : shown (exec (.prep (.other 3)) (operands 5 3)) = some (none, none, 0x126) := by decide
/-- V3.12. -/
theorem test_and : shown (exec (.and (.rep .signedMagnitude)) (operands 0xFFFFFFFB 0xFFFFFFFD)) = some (some 1, none, 2) := by decide +kernel
/-- V3.14. -/
theorem test_or : shown (exec (.or (.rep .onesComplement)) (operands 5 3)) = some (some 0xFFFFFFFE, none, 2) := by decide
/-- V3.16. -/
theorem test_xor : shown (exec (.xor (.rep .noSign)) (operands 0xFF00FF00 0x0FF00FF0)) = some (some 0xF0F0F0F0, none, 2) := by decide
/-- V3.22. -/
theorem test_nand : shown (exec (.nand (.rep .twosComplement)) (operands 5 3)) = some (some 6, none, 2) := by decide
/-- V3.25. -/
theorem test_nor : shown (exec (.nor (.rep .onesComplement)) (operands 5 3)) = some (some 1, none, 2) := by decide
/-- V3.28. -/
theorem test_xxor : shown (exec (.xxor (.rep .signedMagnitude)) (operands 0xFFFFFFFB 3)) = some (some 6, none, 2) := by decide +kernel
/-- V3.29. -/
theorem test_xxor_unsupported : shown (exec (.xxor (.rep .any)) (operands 5 3)) = some (none, none, 0x126) := by decide
/-- V3.31, V3.33. -/
theorem test_bxor :
    shown (exec .bxor (operands 0 7)) = some (some 1, none, 2) ∧
    shown (exec .bxor (operands 0x80000000 1)) = some (some 0, none, 2) := by decide
/-- V4.1. -/
theorem test_add_wraps : shown (exec .add (operands 0xFFFFFFFF 1)) = some (some 0, none, 2) := by decide
/-- V4.14. -/
theorem test_sub_wraps : shown (exec .sub (operands 3 0xA)) = some (some 0xFFFFFFF9, none, 2) := by decide
/-- V4.24. -/
theorem test_mul : shown (exec .mul (operands 0x12345678 0x9ABCDEF0)) = some (some 0x242D2080, none, 2) := by decide +kernel
/-- V5.16a, V5.18a: bit 31 of the divisor, and a divisor of 0. -/
theorem test_div :
    shown (exec .div (operands 0xF0000000 0x80000001)) = some (some 1, none, 2) ∧
    shown (exec .div (operands 0xA 0)) = some (none, none, 0x136) := by decide
/-- V5.14b, V5.19b. -/
theorem test_mod :
    shown (exec .mod (operands 0xDEADBEEF 0x10)) = some (some 0xF, none, 2) ∧
    shown (exec .mod (operands 0 0)) = some (none, none, 0x136) := by decide
/-- V6.6, V6.12. -/
theorem test_sqrt :
    shown (exec .sqrt (operands 0x1A 0)) = some (some 5, none, 2) ∧
    shown (exec .sqrt (operands 0xFFFFFFFF 0)) = some (some 0xFFFF, none, 2) := by decide
/-- V7.2, V7.8. -/
theorem test_log :
    shown (exec .log (operands 0x3E7 0xA)) = some (some 2, none, 2) ∧
    shown (exec .log (operands 0xCFD41B91 3)) = some (some 20, none, 2) := by decide +kernel
/-- V7.10, V7.11, V7.12. -/
theorem test_log_bases :
    shown (exec .log (operands 0 0)) = some (none, none, 0x136) ∧
    shown (exec .log (operands 5 1)) = some (none, none, 0x166) ∧
    shown (exec .log (operands 0 1)) = some (some 0, none, 2) := by decide
/-- V7.13, V7.18. -/
theorem test_log2 :
    shown (exec .log2 (operands 0 0)) = some (some 0, none, 2) ∧
    shown (exec .log2 (operands 0x80000000 0)) = some (some 31, none, 2) := by decide +kernel

/-! ## One step -/

/-- E2: the placed command runs at the very next step. -/
theorem test_step_runs_placed_command :
    shown (step ((loaded 5 3).withFetchWord 32 0x30)) = some (some 8, none, 2) ∧
    shown (step (State.reset.withFetchWord 32 0x31)) = some (some 0, none, 2) ∧
    shown (step (State.reset.withFetchWord 32 0x00000000)) = some (none, none, 0x156) := by decide

/-- R27: a CMD write sets BUSY and clears DONE; the next cycle completes the command. -/
theorem test_step_starts_command :
    shown (step (asked (loaded 5 3) 0x008 (.write 4 0x30))) = some (none, none, 1) ∧
    (nextOf (step (asked (loaded 5 3) 0x008 (.write 4 0x30)))).map (fun t => shown (step t)) = some (some (some 8, none, 2)) := by decide

/-- E1, E14: an illegal word completes at once; CMD holds it (R231). -/
theorem test_step_illegal_word :
    shown (step (asked (loaded 5 3) 0x008 (.write 4 0))) = some (none, none, 0x156) ∧
    (nextOf (step (asked bare 0x008 (.write 4 0x21)))).map (fun t => (t.cmd, t.status.word)) = some (0x21, 0x156) := by decide

/-- H1, H3: after reset STATUS and a reserved offset read 0. -/
theorem test_step_reads_after_reset :
    (nextOf (step (asked State.reset 0x014 (.read 4)))).map State.answer = some (some 0) ∧
    (nextOf (step (asked State.reset 0xFFC (.read 4)))).map State.answer = some (some 0) := by decide

/-- H5: OPA reads back. H9: so does BUF[2]. -/
theorem test_step_writes :
    (nextOf (step (asked State.reset 0x000 (.write 4 7)))).map (fun t => (t.opa, t.opaWritten)) = some (7, true) ∧
    (nextOf (step (asked State.reset 0x1002 (.write 1 0xAB)))).map State.buf = some [(2, 0xAB)] := by decide

/-- H4, H10: ignored writes. -/
theorem test_step_ignored_writes :
    nextOf (step (asked State.reset 0x00C (.write 4 0x12345678))) = some State.reset ∧
    nextOf (step (asked State.reset 0x1004 (.write 1 0xAB))) = some State.reset := by decide

/-- H6, H7: ADD with OPB unwritten is a host contract violation; SQRT does not read OPB. -/
theorem test_step_unwritten_operand :
    faultOf (step (asked { State.reset with opa := 9, opaWritten := true } 0x008 (.write 4 0x30))) = some .unwrittenOperand ∧
    faultOf (step (asked { State.reset with opa := 9, opaWritten := true } 0x008 (.write 4 0x35))) = none := by decide

/-- H15: OPA written while DIV of 10 by 3 is BUSY; RES is the quotient of the latched operands, OPA the new word. -/
theorem test_step_operand_write_while_busy :
    (runSafely 2 (asked ((loaded 10 3).inLastCycle 0x33) 0x000 (.write 4 99))).map (fun t => (t.res, t.opa)) = some (3, 99) := by decide

/-! ## Witnesses: for each statement with hypotheses, values that meet them, clause by clause -/

theorem witness_InvariantHoldsAfterReset : State.reset.Inv := by decide

/-- An idle step and the last cycle of a command. -/
theorem witness_EveryStepKeepsInvariant :
    (State.reset.Inv ∧ step State.reset = .next State.reset) ∧ (running.Inv ∧ ∃ t, step running = .next t) :=
  ⟨⟨by decide, rfl⟩, by decide, _, rfl⟩

theorem witness_ResetInputRestoresResetState : { running with host := [.reset] }.host = .reset :: [] := by decide

theorem witness_StepRunsDecodedCommand :
    running.remaining = 1 ∧ decode running.cfg.hasCompanion running.latch.word = .ok .add ∧ running.host = [] ∧
    { running with host := [.cycle] }.host = .cycle :: [] := by decide

/-- The block where ADD of 5 and 3 takes three cycles, its CMD write and the cycles pending. -/
def slowAdd : State :=
  { loaded 5 3 with
    cfg := { Config.ofVectors with latencies := [{ word := 0x30, a := 5, b := 3, extra := 2 }] }
    host := .access (at_ 0x008 (.write 4 0x30)) :: [.cycle, .cycle, .cycle] }

/-- A latency of three cycles and one of the least. -/
theorem witness_CommandRunsAfterItsLatency :
    latencyOf slowAdd.cfg 0x30 5 3 = 3 ∧ Pending slowAdd (at_ 0x008 (.write 4 0x30)) [.cycle, .cycle, .cycle] 0x008 (.write 4 0x30) ∧
    slowAdd.status.busy = false ∧ decode slowAdd.cfg.hasCompanion 0x30 = .ok .add ∧ operandsWritten .add slowAdd = true ∧
    latencyOf Config.ofVectors 0x30 5 3 = 1 ∧
    Pending { loaded 5 3 with host := .access (at_ 0x008 (.write 4 0x30)) :: [.cycle] } (at_ 0x008 (.write 4 0x30)) [.cycle] 0x008 (.write 4 0x30) := by
  unfold Pending; decide

theorem witness_LatencyHasNoEffectOnResults :
    (loaded 5 3).owner = none ∧ (at_ 0x008 (.write 4 0x30)).addr = (loaded 5 3).cfg.base + 8 ∧
    (at_ 0x008 (.write 4 0x30)).transfer = .write 4 (0x30 : Word).toNat ∧ (loaded 5 3).status.busy = false ∧
    decode (loaded 5 3).cfg.hasCompanion 0x30 = .ok .add ∧ operandsWritten .add (loaded 5 3) = true := by decide

/-- A command of three cycles, written with a STATUS read pending after it, and one of the least latency. -/
theorem witness_CmdWriteStartsCommand :
    Pending { slowAdd with host := [.access (at_ 0x008 (.write 4 0x30)), .access (at_ 0x014 (.read 4))] } (at_ 0x008 (.write 4 0x30))
      [.access (at_ 0x014 (.read 4))] 0x008 (.write 4 (0x30 : Word).toNat) ∧
    Pending (asked (loaded 5 3) 0x008 (.write 4 0x30)) (at_ 0x008 (.write 4 0x30)) [] 0x008 (.write 4 (0x30 : Word).toNat) ∧
    slowAdd.status.busy = false ∧ decode slowAdd.cfg.hasCompanion 0x30 = .ok .add ∧ operandsWritten .add slowAdd = true := by
  unfold Pending; decide

/-- The least count that is not a last cycle, and an idle block. -/
theorem witness_OtherCyclesOnlyCountDown :
    { running with remaining := 2 }.remaining = 0 + 2 ∧ { running with remaining := 2 }.host = [] ∧
    { running with host := [.cycle] }.host = .cycle :: [] ∧ State.reset.remaining = 0 ∧ State.reset.host = [] := by decide

theorem witness_HostAccessLeavesRunningCommand :
    (∃ t, step (asked running 0x000 (.write 4 9)) = .next t) ∧ (asked running 0x000 (.write 4 9)).status.busy = true ∧
    Pending (asked running 0x000 (.write 4 9)) (at_ 0x000 (.write 4 9)) [] 0x000 (.write 4 (9 : Word).toNat) ∧
    Pending (asked running 0x004 (.write 4 9)) (at_ 0x004 (.write 4 9)) [] 0x004 (.write 4 (9 : Word).toNat) ∧
    Pending (asked running 0x014 (.read 4)) (at_ 0x014 (.read 4)) [] 0x014 (.read 4) := by
  refine ⟨⟨_, rfl⟩, ?_⟩; unfold Pending; decide

theorem witness_DecodeOfEncodeIsTheCommand :
    (Instr.prep (.other 0xFE)).wf = true ∧ (Instr.prep (.other 0xFE)).isCompanion = false ∧ (Instr.bsrInit 7 true).wf = true := by decide

theorem witness_EncodeOfDecodeIsTheWord :
    decode true 0x000F0001 = .ok (.bsrInit 7 true) ∧ decode false 0x0000FF20 = .ok (.prep (.rep .all)) := by decide

theorem witness_ExactlyLegalWordsDecode :
    Pending (asked bare 0x008 (.write 4 0x21)) (at_ 0x008 (.write 4 0x21)) [] 0x008 (.write 4 (0x21 : Word).toNat) ∧
    bare.status.busy = false ∧ ¬ Legal bare.cfg.hasCompanion 0x21 ∧ Legal true 0x21 ∧ Legal false 0x0000FF20 := by
  unfold Pending Legal; decide

/-- BSR_NEXT beyond the buffer, REPGET on a host of no known representation, and another failure. -/
theorem witness_FailedCommandWritesOnlyStatus :
    (∃ t, exec .bsrNext (reading 5 0 false 3) = .next t ∧ t.status.err = true ∧ t.status.ecode = 4) ∧
    (∃ t, exec .repget (hosted .other) = .next t ∧ t.status.err = true ∧ t.status.ecode = 1) ∧
    (∃ t, exec .div (operands 10 0) = .next t ∧ t.status.err = true ∧ t.status.ecode = 3) :=
  ⟨⟨_, rfl, rfl, rfl⟩, ⟨_, rfl, rfl, rfl⟩, ⟨_, rfl, rfl, rfl⟩⟩

/-- A block whose last command failed. -/
def failed : State := { State.reset with status := { busy := false, done := true, err := true, ecode := 3, sticky := true } }

/-- An idle step; a failing command; an illegal word; a reset. -/
theorem witness_StickyClearedOnlyByReset :
    (∃ t, step failed = .next t ∧ failed.host = [] ∧ failed.status.sticky = true) ∧
    (∃ t, exec .mod (operands 1 0) = .next t ∧ t.status.err = true) ∧
    (∃ t, step (asked State.reset 0x008 (.write 4 0)) = .next t ∧ t.status ≠ State.reset.status ∧ t.status.done = true ∧ t.status.err = true) ∧
    { failed with host := [.reset] }.host = .reset :: [] :=
  ⟨⟨_, rfl, rfl, rfl⟩, ⟨_, rfl, rfl⟩, ⟨_, rfl, by decide, rfl, rfl⟩, rfl⟩

theorem witness_AuxWrittenOnlyBySmagPrepBsrNext :
    (∃ t, exec .add (operands 1 2) = .next t) ∧ (∃ t, exec (.prep (.rep .all)) (operands 1 2) = .next t ∧ t.status.err = true) ∧
    (∃ t, step (asked State.reset 0x000 (.write 4 7)) = .next t) :=
  ⟨⟨_, rfl⟩, ⟨_, rfl, rfl⟩, ⟨_, rfl⟩⟩

theorem witness_CommandsLeaveHostStateAlone : ∃ t, exec .bsrNext (reading 1 7 false 2) = .next t := ⟨_, rfl⟩

theorem witness_CompanionRegistersHaveTheirWriters :
    (∃ t, exec .bsrNext (reading 1 7 false 2) = .next t) ∧ (∃ t, exec .repget (operands 1 2) = .next t) ∧
    (∃ t, exec .log (operands 8 2) = .next t) := ⟨⟨_, rfl⟩, ⟨_, rfl⟩, ⟨_, rfl⟩⟩

/-- A block in which REPGET is in its last cycle and the probe has found `rep`. -/
def probed (rep : RepStat) : State := { State.reset.inLastCycle 0x10 with repstat := rep }

theorem witness_ProbeResultNeverChanges :
    (∃ t, step (probed { valid := true, fatal := false, rep := 4 }) = .next t) ∧
    (∃ t, step (probed { valid := false, fatal := true, rep := 0 }) = .next t) := ⟨⟨_, rfl⟩, ⟨_, rfl⟩⟩

theorem witness_ResultsDependOnlyOnLatchedInputs :
    (∃ t, exec .add (operands 5 3) = .next t) ∧ (∃ t, exec .add { operands 5 3 with opa := 9, res := 1, cfg := { Config.ofVectors with hostRep := .other } } = .next t) ∧
    (∃ t, exec .repget (hosted .other) = .next t) := ⟨⟨_, rfl⟩, ⟨_, rfl⟩, ⟨_, rfl⟩⟩

theorem witness_ResultsChangeOnlyAtCompletionOrReset :
    ∃ t, step running = .next t ∧ running.host = [] ∧ t.res ≠ running.res := ⟨_, rfl, rfl, by decide⟩

theorem witness_OperandsAndBufferChangeOnlyByHost :
    (∃ t, step (asked State.reset 0x000 (.write 4 7)) = .next t ∧ t.opa ≠ 0) ∧
    (∃ t, step { loaded 5 3 with host := [.reset] } = .next t ∧ t.opb ≠ (loaded 5 3).opb) :=
  ⟨⟨_, rfl, by decide⟩, ⟨_, rfl, by decide⟩⟩

theorem witness_ParametersNeverChange : ∃ t, step (asked bare 0x014 (.read 4)) = .next t := ⟨_, rfl⟩

theorem witness_DivAndMod : (operands 10 0).latch.b = 0 ∧ (operands 10 1).latch.b ≠ 0 ∧ (operands 10 0xFFFFFFFF).latch.b ≠ 0 := by decide

theorem witness_LogIsFloorLogarithm :
    (operands 5 0).latch.b = 0 ∧ ((operands 5 1).latch.b = 1 ∧ (operands 5 1).latch.a ≠ 0) ∧
    ((operands 0 1).latch.b ≠ 0 ∧ (operands 0 1).latch.a = 0) ∧ (2 ≤ (operands 1 2).latch.b.toNat ∧ (operands 1 2).latch.a ≠ 0) := by decide

theorem witness_LogTwoIsHighestSetBit : (operands 0 0).latch.a = 0 ∧ (operands 1 0).latch.a ≠ 0 := by decide

theorem witness_LogOfBaseTwoIsLogTwo : (operands 0xFFFFFFFF 2).latch.b = 2 := by decide

theorem witness_formats :
    (Fmt.rep .noSign).wf = true ∧ (Fmt.rep .all).wf = true ∧ (Fmt.other 0x03).wf = true ∧ (operands 5 3).cfg.hasCompanion = true := by decide

/-- The last byte of the buffer, written and not; and the first index past it. -/
theorem witness_BsrNextConsumesOneElement :
    (reading 3 0 false 0).bsrrem = 0 ∧
    ((reading 4 0 false 1).bsrrem ≠ 0 ∧ (reading 4 0 false 1).cfg.bufLen.val ≤ (reading 4 0 false 1).bsrbyte.toNat) ∧
    ((reading 3 0 false 1).bsrrem ≠ 0 ∧ (reading 3 0 false 1).bsrbyte.toNat < (reading 3 0 false 1).cfg.bufLen.val) ∧
    (reading 1 0 false 1).buf.read 1 = some 0x3C ∧ (reading 3 0 false 1).buf.read 3 = none ∧
    (reading 3 0 false 1).cfg.hasCompanion = true := by decide

/-- A block whose four buffer bytes the host has written. -/
def filled : State := { operands 3 8 with buf := [(0, 0xA5), (1, 0xA5), (2, 0xA5), (3, 0xA5)] }

/-- The sequence of eight elements from bit 4 of the last byte fails after four. -/
theorem witness_ReaderProducesBitSequence :
    filled.cfg.hasCompanion = true ∧ (∀ j, j < filled.cfg.bufLen.val → filled.buf.read j = some (0xA5 : Byte)) ∧
    bitSeq (fun _ => 0xA5) 4 false 8 3 4 = [some false, some true, some false, some true, none] := by decide

theorem witness_RepgetProbesOnceAndLatches :
    (probed { valid := true, fatal := false, rep := 4 }).repstat.valid = true ∧
    ((probed { valid := false, fatal := true, rep := 0 }).repstat.valid = false ∧ (probed { valid := false, fatal := true, rep := 0 }).repstat.fatal = true) ∧
    ((hosted .other).repstat.valid = false ∧ (hosted .other).repstat.fatal = false ∧ (hosted .other).cfg.hasCompanion = true) := by decide

theorem witness_CompanionCommandsAreIllegalWithoutIt : Instr.bxor.isCompanion = true ∧ bare.cfg.hasCompanion = false := by decide

/-- The first and last register, a reserved offset and the last one; a defined read and an open one. -/
theorem witness_RegisterReadsReturnTheRegister :
    Pending (asked (loaded 5 3) 0x000 (.read 4)) (at_ 0x000 (.read 4)) [] 0x000 (.read 4) ∧ readable (loaded 5 3) 0x000 = some 5 ∧
    readable State.reset 0x000 = none ∧ readable State.reset 0x010 = none ∧ readable running 0x024 = none ∧
    Pending (asked State.reset 0x024 (.read 4)) (at_ 0x024 (.read 4)) [] 0x024 (.read 4) ∧ readable State.reset 0x024 = some 0 ∧
    Pending (asked State.reset 0xFFC (.read 4)) (at_ 0xFFC (.read 4)) [] 0xFFC (.read 4) ∧ readable State.reset 0xFFC = some 0 := by
  unfold Pending; decide

theorem witness_OperandWritesStore :
    Pending (asked running 0x000 (.write 4 0xFFFFFFFF)) (at_ 0x000 (.write 4 0xFFFFFFFF)) [] 0x000 (.write 4 (0xFFFFFFFF : Word).toNat) ∧
    Pending (asked running 0x004 (.write 4 0)) (at_ 0x004 (.write 4 0)) [] 0x004 (.write 4 (0 : Word).toNat) := by
  unfold Pending; decide

/-- The first and the last byte of the buffer. -/
theorem witness_BufferWriteStoresOneByte :
    Pending (asked State.reset 0x1000 (.write 1 0xAB)) (at_ 0x1000 (.write 1 0xAB)) [] (0x1000 + 0) (.write 1 (0xAB : Byte).toNat) ∧
    Pending (asked State.reset 0x1003 (.write 1 0xAB)) (at_ 0x1003 (.write 1 0xAB)) [] (0x1000 + 3) (.write 1 (0xAB : Byte).toNat) ∧
    State.reset.cfg.hasCompanion = true ∧ 3 < State.reset.cfg.bufLen.val ∧ State.reset.status.busy = false := by
  unfold Pending; decide

theorem witness_BufferReadReturnsTheByte :
    Pending (asked (reading 0 0 false 0) 0x1001 (.read 1)) (at_ 0x1001 (.read 1)) [] (0x1000 + 1) (.read 1) ∧
    Pending (asked (reading 0 0 false 0) 0x1003 (.read 1)) (at_ 0x1003 (.read 1)) [] (0x1000 + 3) (.read 1) ∧
    (reading 0 0 false 0).buf.read 1 = some 0x3C ∧ (reading 0 0 false 0).buf.read 3 = none ∧
    (reading 0 0 false 0).cfg.hasCompanion = true ∧ 3 < (reading 0 0 false 0).cfg.bufLen.val := by
  unfold Pending; decide

/-- The first and last offset of each range. -/
theorem witness_ReadOnlyAndReservedOffsets :
    Pending (asked running 0x00C (.write 4 1)) (at_ 0x00C (.write 4 1)) [] 0x00C (.write 4 1) ∧
    Pending (asked running 0xFFC (.write 4 1)) (at_ 0xFFC (.write 4 1)) [] 0xFFC (.write 4 1) ∧
    Pending (asked running 0x028 (.read 4)) (at_ 0x028 (.read 4)) [] 0x028 (.read 4) ∧
    Pending (asked running 0x1004 (.write 1 1)) (at_ 0x1004 (.write 1 1)) [] 0x1004 (.write 1 1) ∧
    Pending (asked running 0x100FFF (.read 1)) (at_ 0x100FFF (.read 1)) [] 0x100FFF (.read 1) ∧
    running.cfg.bufLen.val ≤ 0x1004 - 0x1000 ∧ bare.cfg.hasCompanion = false := by
  unfold Pending; decide

theorem witness_HostReadsHaveNoSideEffect : ∃ t, step (asked running 0x00C (.read 4)) = .next t := ⟨_, rfl⟩

theorem witness_HostContractViolationsFault :
    (Pending (asked running 0x008 (.write 4 0x30)) (at_ 0x008 (.write 4 0x30)) [] 0x008 (.write 4 0x30) ∧ running.status.busy = true) ∧
    (Pending (asked running 0x1003 (.write 1 0)) (at_ 0x1003 (.write 1 0)) [] (0x1000 + 3) (.write 1 0) ∧ 3 < running.cfg.bufLen.val) ∧
    (Pending (asked State.reset 0x008 (.write 4 0x30)) (at_ 0x008 (.write 4 0x30)) [] 0x008 (.write 4 (0x30 : Word).toNat) ∧
      State.reset.opaWritten = false ∧ needsOpa .add ∧ needsOpb .add ∧ State.reset.opbWritten = false) ∧
    Pending (asked running 0xFFD (.read 4)) (at_ 0xFFD (.read 4)) [] 0xFFD (.read 4) ∧
    Pending (asked running 0x000 (.write 2 5)) (at_ 0x000 (.write 2 5)) [] 0x000 (.write 2 5) ∧
    Pending (asked running 0x1000 (.read 4)) (at_ 0x1000 (.read 4)) [] 0x1000 (.read 4) ∧
    { asked running 0x000 (.read 4) with owner := some 1 }.owner = some 1 ∧ 1 ≠ (at_ 0x000 (.read 4)).agent := by
  unfold Pending needsOpa needsOpb; decide

/-- Log 17: a companion command in a block without the unit. -/
theorem test_companion_absent : shown (exec .bxor { bare with latch := { word := 0x27, a := 0, b := 7 } }) = some (none, none, 0x156) := by decide

end Sys2Proof.Tests
end

section
/-! PROOFS. The implementation parameters (00_scope.md R9 to R13) are fixed for a machine: no operation of the block writes them. -/

namespace Sys2Proof.Machine

@[simp] theorem endOutOfRange_cfg (s : State) : (endOutOfRange s).cfg = s.cfg := rfl

@[simp] theorem advanceCursor_cfg (s : State) : (advanceCursor s).cfg = s.cfg := by
  unfold advanceCursor; split <;> rfl

@[simp] theorem produceElement_cfg (y : Byte) (s : State) : (produceElement y s).cfg = s.cfg := by
  simp [produceElement]

@[simp] theorem runProbe_cfg (s : State) : (runProbe s).cfg = s.cfg := by
  unfold runProbe; split <;> rfl

@[simp] theorem assertReset_cfg (s : State) : s.assertReset.cfg = s.cfg := rfl

theorem exec_cfg {i : Instr} {s t : State} (h : exec i s = .next t) : t.cfg = s.cfg := by
  rcases exec_cases i s with ⟨_, he⟩ | ⟨_, he⟩ | ⟨_, _, _, he⟩ | ⟨_, _, _, _, he⟩ | ⟨_, _, _, he⟩ | ⟨_, _, _, he⟩ |
    ⟨_, _, _, _, he⟩ | ⟨_, _, _, _, he⟩
  all_goals
    cases he.symm.trans h
    simp

theorem completeCommand_cfg {s t : State} (h : completeCommand s = .next t) : t.cfg = s.cfg := by
  rcases completeCommand_cases s with ⟨i, _, hc⟩ | ⟨_, _, hc⟩
  · exact exec_cfg (hc.symm.trans h)
  · cases hc.symm.trans h
    exact raise_cfg ..

theorem clock_cfg {s t : State} (h : clock s = .next t) : t.cfg = s.cfg := by
  rcases clock_cases s with ⟨_, hc⟩ | ⟨_, hc⟩ | ⟨_, _, hc⟩
  · cases hc.symm.trans h
    rfl
  · exact completeCommand_cfg (hc.symm.trans h)
  · cases hc.symm.trans h
    rfl

theorem startCommand_cfg {w : Word} {s t : State} (h : startCommand w s = .next t) : t.cfg = s.cfg := by
  rcases startCommand_cases w s with ⟨_, _, hc⟩ | ⟨_, _, _, hc⟩ | ⟨_, _, _, hc⟩
  · cases hc.symm.trans h
    exact rejectWord_cfg ..
  · cases hc.symm.trans h
    exact issue_cfg ..
  · cases hc.symm.trans h

theorem hostWrite_cfg {g : Target} {bytes data : Nat} {s t : State} (h : hostWrite g bytes data s = .next t) :
    t.cfg = s.cfg := by
  rcases hostWrite_cases g bytes data s t h with rfl | ⟨_, rfl⟩ | ⟨_, rfl⟩ | ⟨_, _, _, _, rfl⟩ | ⟨_, _, hc⟩
  · rfl
  · rfl
  · rfl
  · rfl
  · exact startCommand_cfg hc

theorem hostAccess_cfg {a : Access} {s t : State} (h : hostAccess a s = .next t) : t.cfg = s.cfg := by
  rcases hostAccess_cases a s t h with ⟨_, _, _, _, rfl⟩ | ⟨_, _, _, hw⟩
  · rfl
  · exact (hostWrite_cfg hw :)

/-- Settles O24: a cycle, a reset and a host access each keep the parameters. -/
theorem parametersNeverChange : Obligations.ParametersNeverChange := by
  intro s t h
  rcases step_cases s with ⟨_, hs⟩ | ⟨_, _, hs⟩ | ⟨_, _, hs⟩ | ⟨_, _, _, hs⟩
  · exact clock_cfg (hs.symm.trans h)
  · exact (clock_cfg (hs.symm.trans h) :)
  · cases hs.symm.trans h
    exact assertReset_cfg _
  · exact (hostAccess_cfg (hs.symm.trans h) :)

end Sys2Proof.Machine
end

section
/-! PROOFS. One step event by event, and one cycle: an equation for each case, and what it says that a step goes on
(20_memory.md R71, 10_state.md R27). -/

namespace Sys2Proof.Machine

section
variable {s t : State} {rest : List HostEvent}

theorem step_of_noEvent (h : s.host = []) : step s = clock s := by simp [step, h]

theorem step_of_cycle (h : s.host = .cycle :: rest) : step s = clock { s with host := rest } := by simp [step, h]

theorem step_of_reset (h : s.host = .reset :: rest) : step s = .next { s with host := rest }.assertReset := by
  simp [step, h]

theorem step_of_access {a : Access} (h : s.host = .access a :: rest) :
    step s = hostAccess a { s with host := rest } := by simp [step, h]

theorem clock_of_idle (h : s.remaining = 0) : clock s = .next s := by simp [clock, h]

theorem clock_of_countdown {n : Nat} (h : s.remaining = n + 2) : clock s = .next { s with remaining := n + 1 } := by
  simp [clock, h]

theorem clock_of_lastCycle {i : Instr} (h : s.remaining = 1) (hd : decode s.cfg.hasCompanion s.latch.word = .ok i) :
    clock s = exec i s := by
  simp [clock, h, completeCommand, hd]

/-- A step that goes on is a cycle, the reset input or a host access. -/
theorem step_next_cases (h : step s = .next t) :
    (∃ rest, (s.host = [] ∨ s.host = .cycle :: rest) ∧ clock { s with host := rest } = .next t) ∨
    (∃ rest, s.host = .reset :: rest ∧ t = { s with host := rest }.assertReset) ∨
    (∃ a rest, s.host = .access a :: rest ∧ hostAccess a { s with host := rest } = .next t) := by
  rcases step_cases s with ⟨hh, hs⟩ | ⟨rest, hh, hs⟩ | ⟨rest, hh, hs⟩ | ⟨a, rest, hh, hs⟩
  · exact .inl ⟨s.host, .inl hh, hs.symm.trans h⟩
  · exact .inl ⟨rest, .inr hh, hs.symm.trans h⟩
  · cases hs.symm.trans h
    exact .inr (.inl ⟨rest, hh, rfl⟩)
  · exact .inr (.inr ⟨a, rest, hh, hs.symm.trans h⟩)

/-- R27: a cycle that goes on counts down (an idle block's 0 stays), or completes the command in its last cycle. -/
theorem clock_next_cases (h : clock s = .next t) :
    (s.remaining ≠ 1 ∧ t = { s with remaining := s.remaining - 1 }) ∨
    (s.remaining = 1 ∧ ∃ i, decode s.cfg.hasCompanion s.latch.word = .ok i ∧ exec i s = .next t) ∨
    (s.remaining = 1 ∧ t = s.raise .illegalCommand) := by
  rcases clock_cases s with ⟨hr, hc⟩ | ⟨hr, hc⟩ | ⟨n, hr, hc⟩
  · cases hc.symm.trans h
    refine .inl ⟨by omega, ?_⟩
    rw [hr, Nat.zero_sub, ← hr]
  · rcases completeCommand_cases s with ⟨i, hd, he⟩ | ⟨_, _, he⟩
    · exact .inr (.inl ⟨hr, i, hd, (hc.trans he).symm.trans h⟩)
    · cases (hc.trans he).symm.trans h
      exact .inr (.inr ⟨hr, rfl⟩)
  · cases hc.symm.trans h
    refine .inl ⟨by omega, ?_⟩
    rw [hr, Nat.add_succ_sub_one]

end

/-- R12: every command takes at least one cycle. -/
theorem latencyOf_pos (cfg : Config) (w a b : Word) : 1 ≤ latencyOf cfg w a b := by
  unfold latencyOf
  split <;> omega

/-- Settles O4: the reset input is the event the step takes. -/
theorem resetInputRestoresResetState : Obligations.ResetInputRestoresResetState := by
  intro s rest h
  exact step_of_reset h

/-- Settles O5: either way the step is a cycle, and the cycle is the command's last. -/
theorem stepRunsDecodedCommand : Obligations.StepRunsDecodedCommand := by
  intro s i hr hd
  refine ⟨fun hh => ?_, fun rest hh => ?_⟩
  · rw [step_of_noEvent hh, clock_of_lastCycle hr hd]
  · rw [step_of_cycle hh]
    exact clock_of_lastCycle hr hd

/-- Settles O55: either way the step is a cycle, of a running or of an idle block. -/
theorem otherCyclesOnlyCountDown : Obligations.OtherCyclesOnlyCountDown := by
  intro s rest
  refine ⟨fun n hr => ⟨fun hh => ?_, fun hh => ?_⟩, fun hr => ⟨fun hh => ?_, fun hh => ?_⟩⟩
  · rw [step_of_noEvent hh, clock_of_countdown hr]
  · rw [step_of_cycle hh]
    exact clock_of_countdown hr
  · rw [step_of_noEvent hh, clock_of_idle hr]
  · rw [step_of_cycle hh]
    exact clock_of_idle hr

end Sys2Proof.Machine
end

section
/-! PROOFS. The invariant of Safety.lean: it holds after reset and every step keeps it. -/

namespace Sys2Proof.Machine

/-- The parts of the invariant a completion does not restore by itself: BUF, REPSTAT, the cursor, and their absence without
the companion unit. -/
abbrev State.DataOk (s : State) : Prop := s.BufOk ∧ s.RepstatOk ∧ s.CursorOk ∧ s.CompanionOk

theorem inFlightOk_iff {s : State} :
    s.InFlightOk ↔ (s.status.busy = true → s.latch.word = s.cmd ∧
      ∃ i, decode s.cfg.hasCompanion s.latch.word = .ok i ∧ operandsWritten i s = true) := by
  unfold State.InFlightOk
  cases decode s.cfg.hasCompanion s.latch.word <;> simp

/-- R36: a host write of an operand takes no mark away. -/
theorem operandsWritten_mono {i : Instr} {s t : State} (ha : s.opaWritten = true → t.opaWritten = true)
    (hb : s.opbWritten = true → t.opbWritten = true) (h : operandsWritten i s = true) : operandsWritten i t = true := by
  simp only [operandsWritten, Bool.and_eq_true, Bool.or_eq_true] at h ⊢
  obtain ⟨hA, hB⟩ := h
  exact ⟨hA.imp_right ha, hB.imp_right hb⟩

theorem errorCode_number_bounds (e : ErrorCode) : 1 ≤ e.number.toNat ∧ e.number.toNat ≤ 6 := by
  cases e <;> decide

section
variable {s t : State}

theorem dataOk_of_inv (h : s.Inv) : s.DataOk := by
  obtain ⟨hbuf, _, hrep, hcur, _, hcomp⟩ := h
  exact ⟨hbuf, hrep, hcur, hcomp⟩

/-- R236: a success completion restores STATUS and leaves no command in flight. -/
theorem succeed_inv (h : s.DataOk) : s.succeed.Inv := by
  obtain ⟨hbuf, hrep, hcur, hcomp⟩ := h
  exact ⟨hbuf, by simp [State.StatusOk], hrep, hcur, by simp [State.InFlightOk], hcomp⟩

/-- R233: so does an error completion, with any of the six codes. -/
theorem raise_inv (e : ErrorCode) (h : s.DataOk) : (s.raise e).Inv := by
  obtain ⟨hbuf, hrep, hcur, hcomp⟩ := h
  exact ⟨hbuf, by simpa [State.StatusOk] using errorCode_number_bounds e, hrep, hcur, by simp [State.InFlightOk], hcomp⟩

/-- R31, R103: a cursor of fewer than 2^31 elements is one the invariant allows. -/
theorem setCursor_dataOk {y n : Word} {p : BitVec 3} {rev : Bool} (h : s.DataOk) (hc : s.cfg.hasCompanion = true)
    (hn : n.toNat < 2 ^ 31) : (s.setCursor y p rev n).DataOk := by
  obtain ⟨hbuf, hrep, _, _⟩ := h
  exact ⟨hbuf, hrep, ⟨rfl, hn⟩, fun hn => absurd (hc.symm.trans hn) (by decide)⟩

/-- R103: a count operand asks for fewer than 2^31 elements. -/
theorem elementCount_lt (b : Word) : (elementCount b).toNat < 2 ^ 31 := by
  unfold elementCount
  split
  · decide
  · rename_i hb
    have hpos : 0 < b.toInt := not_le.mp hb
    rw [BitVec.toInt_eq_toNat_cond] at hpos
    split at hpos <;> omega

theorem advanceCursor_dataOk (h : s.DataOk) (hc : s.cfg.hasCompanion = true) (hr : s.bsrrem ≠ 0) :
    (advanceCursor s).DataOk := by
  have hlt : (s.bsrrem - 1).toNat < 2 ^ 31 := by
    obtain ⟨_, _, ⟨_, hlt⟩, _⟩ := h
    bv_omega
  unfold advanceCursor
  split
  · exact setCursor_dataOk h hc hlt
  · exact setCursor_dataOk h hc hlt

theorem afterBufRead_dataOk (i : Nat) (h : s.DataOk) : (s.afterBufRead i).DataOk := by
  unfold State.afterBufRead
  split
  · exact h
  · exact h

/-- R121, R123: the probe's answer and its failure are both what REPSTAT may hold. -/
theorem runProbe_inv (h : s.DataOk) (hc : s.cfg.hasCompanion = true) (hv : s.repstat.valid = false)
    (hf : s.repstat.fatal = false) : (runProbe s).Inv := by
  obtain ⟨hbuf, ⟨_, hrep, _, _⟩, hcur, _⟩ := h
  have hcomp : s.cfg.hasCompanion = false → False := by simp [hc]
  unfold runProbe
  cases hp : probe s.cfg.hostRep with
  | none => exact raise_inv _ ⟨hbuf, by simp [State.RepstatOk, hv, hrep hv, hp], hcur, fun h => (hcomp h).elim⟩
  | some r => exact succeed_inv ⟨hbuf, by simp [State.RepstatOk, hf, hp], hcur, fun h => (hcomp h).elim⟩

theorem produceElement_inv (y : Byte) (h : s.DataOk) (hc : s.cfg.hasCompanion = true) (hr : s.bsrrem ≠ 0) :
    (produceElement y s).Inv :=
  succeed_inv (advanceCursor_dataOk h hc hr)

theorem exec_inv {i : Instr} (h : s.DataOk) (he : exec i s = .next t) : t.Inv := by
  rcases exec_cases i s with ⟨e, hx⟩ | ⟨v, hx⟩ | ⟨_, v, w, hx⟩ | ⟨p, rev, _, hc, hx⟩ | ⟨_, _, _, hx⟩ | ⟨_, hc, _, hx⟩ |
    ⟨_, hc, hr, _, hx⟩ | ⟨_, hc, hv, hf, hx⟩
  all_goals cases hx.symm.trans he
  · exact raise_inv e h
  · exact succeed_inv (s := s.writeRes v) h
  · exact succeed_inv (s := (s.writeRes v).writeAux w) h
  · exact succeed_inv (setCursor_dataOk h hc (elementCount_lt _))
  · exact succeed_inv (s := s.writeAux 0) h
  · exact raise_inv _ (setCursor_dataOk h hc (by decide))
  · exact produceElement_inv _ (afterBufRead_dataOk _ h) (by simpa using hc) (by simpa using hr)
  · exact runProbe_inv h hc hv hf

theorem clock_inv (h : s.Inv) (hc : clock s = .next t) : t.Inv := by
  rcases clock_next_cases hc with ⟨hr, rfl⟩ | ⟨_, i, _, he⟩ | ⟨_, rfl⟩
  · obtain ⟨hbuf, ⟨hbusy, hstatus⟩, hrep, hcur, hfl, hcomp⟩ := h
    have hiff : s.remaining ≠ 0 ↔ s.remaining - 1 ≠ 0 := by omega
    exact ⟨hbuf, ⟨hbusy.trans (decide_eq_decide.mpr hiff), hstatus⟩, hrep, hcur, hfl, hcomp⟩
  · exact exec_inv (dataOk_of_inv h) he
  · exact raise_inv _ (dataOk_of_inv h)

/-- R27, R36: a legal word is started with its operands written, in an idle block. -/
theorem issue_inv {w : Word} {i : Instr} (h : s.Inv) (hd : decode s.cfg.hasCompanion w = .ok i)
    (ho : operandsWritten i s = true) : (s.issue w).Inv := by
  obtain ⟨hbuf, ⟨_, _, hcode, herr, _⟩, hrep, hcur, _, hcomp⟩ := h
  have hpos : latencyOf s.cfg w s.opa s.opb ≠ 0 := Nat.one_le_iff_ne_zero.mp (latencyOf_pos ..)
  refine ⟨hbuf, ⟨?_, fun _ => rfl, hcode, herr, fun hb => Bool.noConfusion hb⟩, hrep, hcur, ?_, hcomp⟩
  · exact (decide_eq_true hpos).symm
  · exact inFlightOk_iff.mpr fun _ => ⟨rfl, i, hd, ho⟩

theorem startCommand_inv {w : Word} (h : s.Inv) (hs : startCommand w s = .next t) : t.Inv := by
  rcases startCommand_cases w s with ⟨_, _, hc⟩ | ⟨i, hd, ho, hc⟩ | ⟨_, _, _, hc⟩
  all_goals cases hc.symm.trans hs
  · exact raise_inv _ (s := { s with cmd := w }) (dataOk_of_inv (s := s) h)
  · exact issue_inv h hd ho

/-- R21, R22: a host write of OPA or OPB leaves everything the invariant speaks of, but for the marks it sets. -/
theorem operandWrite_inv (h : s.Inv) (opa opb : Word) {wa wb : Bool} (ha : s.opaWritten = true → wa = true)
    (hb : s.opbWritten = true → wb = true) :
    { s with opa := opa, opaWritten := wa, opb := opb, opbWritten := wb }.Inv := by
  obtain ⟨hbuf, hstatus, hrep, hcur, hfl, hcomp⟩ := h
  refine ⟨hbuf, hstatus, hrep, hcur, inFlightOk_iff.mpr fun hbusy => ?_, hcomp⟩
  obtain ⟨hw, i, hd, ho⟩ := inFlightOk_iff.mp hfl hbusy
  exact ⟨hw, i, hd, operandsWritten_mono ha hb ho⟩

/-- R34, R62, R64: a write of a byte the buffer has keeps its canonical form and its bound. -/
theorem bufWrite_inv {i : Nat} (v : Byte) (h : s.Inv) (hi : hasBufByte i s = true) :
    { s with buf := s.buf.write i v }.Inv := by
  obtain ⟨⟨hwf, hlen⟩, hstatus, hrep, hcur, hfl, _⟩ := h
  simp only [hasBufByte, Bool.and_eq_true, decide_eq_true_eq] at hi
  obtain ⟨hc, hi⟩ := hi
  refine ⟨⟨wf_write _ _ _ hwf, fun c hmem => ?_⟩, hstatus, hrep, hcur, hfl, fun hn => ?_⟩
  · rcases mem_write _ _ _ _ hmem with rfl | hmem
    · exact hi
    · exact hlen c hmem
  · exact absurd (hc.symm.trans hn) (by decide)

theorem hostWrite_inv {g : Target} {bytes data : Nat} (h : s.Inv) (hw : hostWrite g bytes data s = .next t) : t.Inv := by
  rcases hostWrite_cases g bytes data s t hw with rfl | ⟨v, rfl⟩ | ⟨v, rfl⟩ | ⟨i, v, hi, _, rfl⟩ | ⟨w, _, hs⟩
  · exact h
  · exact operandWrite_inv h v s.opb (fun _ => rfl) id
  · exact operandWrite_inv h s.opa v id (fun _ => rfl)
  · exact bufWrite_inv v h hi
  · exact startCommand_inv h hs

theorem hostAccess_inv {a : Access} (h : s.Inv) (ha : hostAccess a s = .next t) : t.Inv := by
  rcases hostAccess_cases a s t ha with ⟨_, _, _, _, rfl⟩ | ⟨_, _, _, hw⟩
  · exact h
  · exact hostWrite_inv (s := { s with owner := if a.last then none else some a.agent }) h hw

end

/-- Settles O2: every field the invariant speaks of is clear, and no command is in flight. -/
theorem invariantHoldsAfterReset : Obligations.InvariantHoldsAfterReset := by
  intro cfg
  refine ⟨?_, ?_, ?_, ?_, ?_, ?_⟩
  · exact ⟨wf_reset cfg, by simp [State.resetOf]⟩
  · simp [State.StatusOk, State.resetOf]
  · simp [State.RepstatOk, State.resetOf]
  · simp [State.CursorOk, State.resetOf]
  · simp [State.InFlightOk, State.resetOf]
  · simp [State.CompanionOk, State.resetOf]

/-- Settles O3: a cycle and a host access each keep the invariant, and the reset input goes to a state that meets it. -/
theorem everyStepKeepsInvariant : Obligations.EveryStepKeepsInvariant := by
  intro s t hi hs
  rcases step_next_cases hs with ⟨rest, _, hc⟩ | ⟨rest, _, rfl⟩ | ⟨a, rest, _, ha⟩
  · exact clock_inv (s := { s with host := rest }) hi hc
  · exact invariantHoldsAfterReset s.cfg
  · exact hostAccess_inv (s := { s with host := rest }) hi ha

end Sys2Proof.Machine
end

section
/-! PROOFS. Frames: which fields a command, a cycle and a host access can write, each said once (10_state.md R21 to R25,
R30 to R32; 20_memory.md R64, R67, R68). -/

namespace Sys2Proof.Machine

section
variable {i : Instr} {s t : State}

theorem afterBufRead_frame (k : Nat) (s : State) : s.afterBufRead k = { s with draws := (s.afterBufRead k).draws } := by
  unfold State.afterBufRead
  split <;> rfl

theorem advanceCursor_frame (s : State) :
    advanceCursor s = { s with
      bsrstat := (advanceCursor s).bsrstat, bsrbyte := (advanceCursor s).bsrbyte, bsrrem := (advanceCursor s).bsrrem } := by
  unfold advanceCursor
  split <;> rfl

theorem runProbe_frame (s : State) :
    runProbe s = { s with
      res := (runProbe s).res, resWritten := (runProbe s).resWritten, status := (runProbe s).status
      repstat := (runProbe s).repstat, remaining := (runProbe s).remaining } := by
  unfold runProbe
  split <;> rfl

@[simp] theorem advanceCursor_repstat (s : State) : (advanceCursor s).repstat = s.repstat := by
  rw [advanceCursor_frame]

@[simp] theorem produceElement_repstat (y : Byte) (s : State) : (produceElement y s).repstat = s.repstat :=
  advanceCursor_repstat s

/-- A command writes only RES, AUX, STATUS, REPSTAT, the cursor, the remaining latency and the count of draws. -/
theorem exec_frame (h : exec i s = .next t) :
    t = { s with
      res := t.res, resWritten := t.resWritten, aux := t.aux, auxWritten := t.auxWritten, status := t.status
      repstat := t.repstat, bsrstat := t.bsrstat, bsrbyte := t.bsrbyte, bsrrem := t.bsrrem
      remaining := t.remaining, draws := t.draws } := by
  rcases exec_cases i s with ⟨_, hx⟩ | ⟨_, hx⟩ | ⟨_, _, _, hx⟩ | ⟨_, _, _, _, hx⟩ | ⟨_, _, _, hx⟩ | ⟨_, _, _, hx⟩ |
    ⟨_, _, _, _, hx⟩ | ⟨_, _, _, _, hx⟩
  all_goals cases hx.symm.trans h
  · rfl
  · rfl
  · rfl
  · rfl
  · rfl
  · rfl
  · rw [produceElement, advanceCursor_frame, afterBufRead_frame]
    rfl
  · rw [runProbe_frame]

/-- R25: a command leaves AUX alone, or is one of its three writers and succeeds. -/
theorem exec_aux_cases (h : exec i s = .next t) :
    (t.aux = s.aux ∧ t.auxWritten = s.auxWritten) ∨
    ((i = .smag ∨ (∃ f, i = .prep f) ∨ i = .bsrNext) ∧ t.status.err = false) := by
  rcases exec_cases i s with ⟨_, hx⟩ | ⟨_, hx⟩ | ⟨hi, _, _, hx⟩ | ⟨_, _, _, _, hx⟩ | ⟨hi, _, _, hx⟩ | ⟨_, _, _, hx⟩ |
    ⟨hi, _, _, _, hx⟩ | ⟨_, _, _, _, hx⟩
  all_goals cases hx.symm.trans h
  · exact .inl ⟨rfl, rfl⟩
  · exact .inl ⟨rfl, rfl⟩
  · exact .inr ⟨hi.imp_right .inl, rfl⟩
  · exact .inl ⟨rfl, rfl⟩
  · exact .inr ⟨.inr (.inr hi), rfl⟩
  · exact .inl ⟨rfl, rfl⟩
  · exact .inr ⟨.inr (.inr hi), rfl⟩
  · rw [runProbe_frame]
    exact .inl ⟨rfl, rfl⟩

/-- R30, R121: a command leaves REPSTAT alone, or is the REPGET that runs the probe. -/
theorem exec_repstat_cases (h : exec i s = .next t) :
    t.repstat = s.repstat ∨ (i = .repget ∧ s.repstat.valid = false ∧ s.repstat.fatal = false) := by
  rcases exec_cases i s with ⟨_, hx⟩ | ⟨_, hx⟩ | ⟨_, _, _, hx⟩ | ⟨_, _, _, _, hx⟩ | ⟨_, _, _, hx⟩ | ⟨_, _, _, hx⟩ |
    ⟨_, _, _, _, hx⟩ | ⟨hi, _, hv, hf, hx⟩
  all_goals cases hx.symm.trans h
  · exact .inl rfl
  · exact .inl rfl
  · exact .inl rfl
  · exact .inl rfl
  · exact .inl rfl
  · exact .inl rfl
  · exact .inl (by simp)
  · exact .inr ⟨hi, hv, hf⟩

/-- R31, R32, R63: a command that is not one of the reader's leaves the cursor alone and draws no byte. -/
theorem exec_cursor (h : exec i s = .next t) (hinit : ∀ p r, i ≠ .bsrInit p r) (hnext : i ≠ .bsrNext) :
    t.bsrstat = s.bsrstat ∧ t.bsrbyte = s.bsrbyte ∧ t.bsrrem = s.bsrrem ∧ t.draws = s.draws := by
  rcases exec_cases i s with ⟨_, hx⟩ | ⟨_, hx⟩ | ⟨_, _, _, hx⟩ | ⟨p, r, hi, _, _⟩ | ⟨hi, _⟩ | ⟨hi, _⟩ | ⟨hi, _⟩ |
    ⟨_, _, _, _, hx⟩
  · cases hx.symm.trans h
    exact ⟨rfl, rfl, rfl, rfl⟩
  · cases hx.symm.trans h
    exact ⟨rfl, rfl, rfl, rfl⟩
  · cases hx.symm.trans h
    exact ⟨rfl, rfl, rfl, rfl⟩
  · exact absurd hi (hinit p r)
  · exact absurd hi hnext
  · exact absurd hi hnext
  · exact absurd hi hnext
  · cases hx.symm.trans h
    rw [runProbe_frame]
    exact ⟨rfl, rfl, rfl, rfl⟩

/-- A cycle writes no more than a command does. -/
theorem clock_frame (h : clock s = .next t) :
    t = { s with
      res := t.res, resWritten := t.resWritten, aux := t.aux, auxWritten := t.auxWritten, status := t.status
      repstat := t.repstat, bsrstat := t.bsrstat, bsrbyte := t.bsrbyte, bsrrem := t.bsrrem
      remaining := t.remaining, draws := t.draws } := by
  rcases clock_next_cases h with ⟨_, rfl⟩ | ⟨_, _, _, he⟩ | ⟨_, rfl⟩
  · rfl
  · exact exec_frame he
  · rfl

theorem clock_repstat (h : clock s = .next t) (hp : s.repstat.valid = true ∨ s.repstat.fatal = true) :
    t.repstat = s.repstat := by
  rcases clock_next_cases h with ⟨_, rfl⟩ | ⟨_, _, _, he⟩ | ⟨_, rfl⟩
  · rfl
  · rcases exec_repstat_cases he with hr | ⟨_, hv, hf⟩
    · exact hr
    · simp [hv, hf] at hp
  · rfl

theorem startCommand_frame {w : Word} (h : startCommand w s = .next t) :
    t = { s with cmd := t.cmd, status := t.status, latch := t.latch, remaining := t.remaining } := by
  rcases startCommand_cases w s with ⟨_, _, hc⟩ | ⟨_, _, _, hc⟩ | ⟨_, _, _, hc⟩
  all_goals cases hc.symm.trans h
  · rfl
  · rfl

theorem hostWrite_frame {g : Target} {bytes data : Nat} (h : hostWrite g bytes data s = .next t) :
    t = { s with
      opa := t.opa, opaWritten := t.opaWritten, opb := t.opb, opbWritten := t.opbWritten, cmd := t.cmd, status := t.status
      buf := t.buf, latch := t.latch, remaining := t.remaining } := by
  rcases hostWrite_cases g bytes data s t h with rfl | ⟨_, rfl⟩ | ⟨_, rfl⟩ | ⟨_, _, _, _, rfl⟩ | ⟨_, _, hs⟩
  · rfl
  · rfl
  · rfl
  · rfl
  · rw [startCommand_frame hs]

/-- R67: no host access writes RES, AUX, REPSTAT or the cursor. -/
theorem hostAccess_frame {a : Access} (h : hostAccess a s = .next t) :
    t = { s with
      opa := t.opa, opaWritten := t.opaWritten, opb := t.opb, opbWritten := t.opbWritten, cmd := t.cmd, status := t.status
      buf := t.buf, latch := t.latch, remaining := t.remaining, owner := t.owner, answer := t.answer, draws := t.draws } := by
  rcases hostAccess_cases a s t h with ⟨_, _, _, _, rfl⟩ | ⟨_, _, _, hw⟩
  · rfl
  · rw [hostWrite_frame hw]

/-- R27 item 2, R281: a host access that goes on while BUSY writes only an operand register, besides the port's own fields. -/
theorem hostAccess_frame_of_busy {a : Access} (hb : s.status.busy = true) (h : hostAccess a s = .next t) :
    t = { s with
      opa := t.opa, opaWritten := t.opaWritten, opb := t.opb, opbWritten := t.opbWritten
      owner := t.owner, answer := t.answer, draws := t.draws } := by
  rcases hostAccess_cases a s t h with ⟨_, _, _, _, rfl⟩ | ⟨_, _, _, hw⟩
  · rfl
  · rcases hostWrite_cases _ _ _ _ t hw with rfl | ⟨_, rfl⟩ | ⟨_, rfl⟩ | ⟨_, _, _, hidle, _⟩ | ⟨_, hidle, _⟩
    · rfl
    · rfl
    · rfl
    · exact absurd (hb.symm.trans hidle) (by decide)
    · exact absurd (hb.symm.trans hidle) (by decide)

end

/-- Settles O17: AUX's writers are the three commands, none of which fails after writing it, and no host access is one. -/
theorem auxWrittenOnlyBySmagPrepBsrNext : Obligations.AuxWrittenOnlyBySmagPrepBsrNext := by
  refine ⟨fun i s t h hi => ?_, fun s t a rest hh h => ?_⟩
  · rcases exec_aux_cases h with haux | ⟨hw, hok⟩
    · exact haux
    · rcases hi with ⟨hsmag, hprep, hnext⟩ | herr
      · rcases hw with hw | ⟨f, hw⟩ | hw
        · exact absurd hw hsmag
        · exact absurd hw (hprep f)
        · exact absurd hw hnext
      · exact absurd (herr.symm.trans hok) (by decide)
  · rw [hostAccess_frame ((step_of_access hh).symm.trans h)]
    exact ⟨rfl, rfl⟩

/-- Settles O18: none of these fields is among those a command can write. -/
theorem commandsLeaveHostStateAlone : Obligations.CommandsLeaveHostStateAlone := by
  intro i s t h
  rw [exec_frame h]
  exact ⟨rfl, rfl, rfl, rfl, rfl, rfl, rfl, rfl, rfl, rfl, rfl⟩

/-- Settles O19: REPSTAT's one writer is REPGET, and the cursor's are the reader's two commands. -/
theorem companionRegistersHaveTheirWriters : Obligations.CompanionRegistersHaveTheirWriters := by
  intro i s t h
  refine ⟨fun hi => ?_, exec_cursor h⟩
  rcases exec_repstat_cases h with hr | ⟨hrep, _⟩
  · exact hr
  · exact absurd hrep hi

/-- Settles O20: a cycle does not run the probe again once it has answered, and no host access writes REPSTAT. -/
theorem probeResultNeverChanges : Obligations.ProbeResultNeverChanges := by
  intro s t h hreset hp
  rcases step_next_cases h with ⟨rest, _, hc⟩ | ⟨rest, hh, _⟩ | ⟨a, rest, _, ha⟩
  · exact (clock_repstat hc hp :)
  · exact absurd hh (hreset rest)
  · rw [hostAccess_frame ha]

/-- Settles O23: a cycle writes none of the three, and neither does a read. -/
theorem operandsAndBufferChangeOnlyByHost : Obligations.OperandsAndBufferChangeOnlyByHost := by
  intro s t h hne
  rcases step_next_cases h with ⟨rest, _, hc⟩ | ⟨rest, hh, _⟩ | ⟨a, rest, hh, ha⟩
  · rw [clock_frame hc] at hne
    simp at hne
  · exact .inl ⟨rest, hh⟩
  · rcases hostAccess_cases a _ t ha with ⟨_, _, _, _, rfl⟩ | ⟨n, d, htr, _⟩
    · simp at hne
    · exact .inr ⟨a, rest, n, d, hh, htr⟩

end Sys2Proof.Machine
end

section
/-! PROOFS. The address map, and what an access at an offset of the window does (10_state.md R20, R39; 20_memory.md R60 to R62). -/

namespace Sys2Proof.Machine

open Sys2Proof.Claims

/-- R20: a register stands at its own offset. -/
theorem Reg.ofOffset_offset (r : Reg) : Reg.ofOffset r.offset = some r := by
  cases r <;> rfl

theorem Reg.offset_of_ofOffset {off : Nat} {r : Reg} (h : Reg.ofOffset off = some r) : off = r.offset := by
  unfold Reg.ofOffset at h
  split at h
  all_goals cases h
  all_goals rfl

theorem Reg.offset_ne_of_reserved {off : Nat} (h : Reg.ofOffset off = none) (r : Reg) : off ≠ r.offset := by
  rintro rfl
  rw [Reg.ofOffset_offset] at h
  cases h

/-- R20: the registers end at offset 0x024. -/
theorem Reg.offset_le (r : Reg) : r.offset ≤ 0x024 := by
  cases r <;> decide

theorem Reg.offset_aligned (r : Reg) : r.offset % 4 = 0 := by
  cases r <;> rfl

section
variable {cfg : Config} {off : Nat}

theorem target_of_register (r : Reg) : target cfg (cfg.base + BitVec.ofNat 32 r.offset) = .register r := by
  have hle := r.offset_le
  simp only [target]
  rw [offsetOf_base _ _ (by omega), if_pos (by omega), if_neg (by simp [r.offset_aligned]), Reg.ofOffset_offset]

theorem target_of_reserved (hlt : off < 0x1000) (h4 : off % 4 = 0) (h : Reg.ofOffset off = none) :
    target cfg (cfg.base + BitVec.ofNat 32 off) = .reserved := by
  simp only [target]
  rw [offsetOf_base _ _ (by omega), if_pos hlt, if_neg (by simp [h4]), h]

theorem target_of_bufWindow (hge : 0x1000 ≤ off) (hlt : off < 0x101000) :
    target cfg (cfg.base + BitVec.ofNat 32 off) = .bufWindow (off - 0x1000) := by
  simp only [target]
  rw [offsetOf_base _ _ (by omega), if_neg (by omega), if_pos hlt]

end

section
variable {s : State} {a : Access} {rest : List HostEvent} {off n d : Nat}

/-- R76: an access by an agent the port is free for is no violation of item 5. -/
theorem interleaves_of_free (h : s.owner = none ∨ s.owner = some a.agent) : interleaves a s = false := by
  rcases h with h | h <;> simp [interleaves, h]

theorem offset_lt_of_pending {tr : Transfer} (h : Pending s a rest off tr) : off < 0x101000 := by
  obtain ⟨_, _, _, _, hlt⟩ := h
  exact hlt

/-- A pending read is a host read at its target, after the access was taken. -/
theorem step_of_pendingRead (h : Pending s a rest off (.read n)) :
    step s = hostRead (target s.cfg (s.cfg.base + BitVec.ofNat 32 off)) n (taken s a rest) := by
  obtain ⟨hh, hfree, haddr, htr, _⟩ := h
  have hport : interleaves a { s with host := rest } = false := interleaves_of_free hfree
  rw [step_of_access hh, ← haddr]
  simp only [hostAccess, hport, htr]
  rfl

/-- A pending write is a host write at its target, after the access was taken. -/
theorem step_of_pendingWrite (h : Pending s a rest off (.write n d)) :
    step s = hostWrite (target s.cfg (s.cfg.base + BitVec.ofNat 32 off)) n d (taken s a rest) := by
  obtain ⟨hh, hfree, haddr, htr, _⟩ := h
  have hport : interleaves a { s with host := rest } = false := interleaves_of_free hfree
  rw [step_of_access hh, ← haddr]
  simp only [hostAccess, hport, htr]
  rfl

theorem step_of_registerRead {r : Reg} (h : Pending s a rest r.offset (.read 4)) :
    step s = .next (readRegister r (taken s a rest)) := by
  rw [step_of_pendingRead h, target_of_register, hostRead, if_pos rfl]

theorem step_of_registerWrite {r : Reg} (h : Pending s a rest r.offset (.write 4 d)) :
    step s = writeRegister r (BitVec.ofNat 32 d) (taken s a rest) := by
  rw [step_of_pendingWrite h, target_of_register, hostWrite, if_pos rfl]

theorem step_of_wordWrite {r : Reg} {v : Word} (h : Pending s a rest r.offset (.write 4 v.toNat)) :
    step s = writeRegister r v (taken s a rest) := by
  rw [step_of_registerWrite h, BitVec.ofNat_toNat, BitVec.setWidth_eq]

/-- R39: a reserved word reads 0. -/
theorem step_of_reservedRead (h : Pending s a rest off (.read 4)) (hlt : off < 0x1000) (h4 : off % 4 = 0)
    (hr : Reg.ofOffset off = none) : step s = .next { taken s a rest with answer := some 0 } := by
  rw [step_of_pendingRead h, target_of_reserved hlt h4 hr, hostRead, if_pos rfl]
  rfl

/-- R39: a write of a reserved word is ignored. -/
theorem step_of_reservedWrite (h : Pending s a rest off (.write 4 d)) (hlt : off < 0x1000) (h4 : off % 4 = 0)
    (hr : Reg.ofOffset off = none) : step s = .next (taken s a rest) := by
  rw [step_of_pendingWrite h, target_of_reserved hlt h4 hr, hostWrite, if_pos rfl]

theorem step_of_bufRead (h : Pending s a rest off (.read 1)) (hge : 0x1000 ≤ off) :
    step s = .next (readBufWindow (off - 0x1000) (taken s a rest)) := by
  rw [step_of_pendingRead h, target_of_bufWindow hge (offset_lt_of_pending h), hostRead, if_pos rfl]

theorem step_of_bufWrite (h : Pending s a rest off (.write 1 d)) (hge : 0x1000 ≤ off) :
    step s = writeBufWindow (off - 0x1000) (BitVec.ofNat 8 d) (taken s a rest) := by
  rw [step_of_pendingWrite h, target_of_bufWindow hge (offset_lt_of_pending h), hostWrite, if_pos rfl]

end

section
variable (v : Word) (s : State)

theorem readOperand_eq (written : Bool) :
    readOperand written v s = (if written then some v else none).elim s.answerFree fun u => s.answerWith u := by
  cases written <;> rfl

theorem readResult_eq (written : Bool) :
    readResult written v s =
      (if s.status.busy = false ∧ written = true then some v else none).elim s.answerFree fun u => s.answerWith u := by
  cases hb : s.status.busy
  · cases written <;> simp [readResult, hb]
  · simp [readResult, hb]

theorem readCompanion_eq :
    readCompanion v s =
      (if s.cfg.hasCompanion = false then some 0 else if s.status.busy = true then none else some v).elim
        s.answerFree fun u => s.answerWith u := by
  cases hc : s.cfg.hasCompanion
  · simp [readCompanion, hc]
  · cases hb : s.status.busy <;> simp [readCompanion, hc, hb]

end

/-- R20, R33, R37, R281: a read answers with the register where the spec defines what it reads, and with a draw where it does not. -/
theorem readRegister_eq_readable (r : Reg) (s : State) :
    readRegister r s = (readable s r.offset).elim s.answerFree fun v => s.answerWith v := by
  cases r
  case cmd | status => rfl
  case opa | opb => exact readOperand_eq ..
  case res | aux => exact readResult_eq ..
  case repstat | bsrstat | bsrbyte | bsrrem => exact readCompanion_eq ..

theorem readable_of_reserved {off : Nat} (h : Reg.ofOffset off = none) (s : State) : readable s off = some 0 := by
  have hne := Reg.offset_ne_of_reserved h
  simp [readable, show off ≠ 0x000 from hne .opa, show off ≠ 0x004 from hne .opb, show off ≠ 0x008 from hne .cmd,
    show off ≠ 0x00C from hne .res, show off ≠ 0x010 from hne .aux, show off ≠ 0x014 from hne .status,
    show off ≠ 0x018 from hne .repstat, show off ≠ 0x01C from hne .bsrstat, show off ≠ 0x020 from hne .bsrbyte,
    show off ≠ 0x024 from hne .bsrrem]

/-- Settles O47: the offset is a register's, read as the spec defines it or as a draw, or a reserved one, read as 0. -/
theorem registerReadsReturnTheRegister : Obligations.RegisterReadsReturnTheRegister := by
  intro s a rest off hp hlt h4
  cases hr : Reg.ofOffset off with
  | none =>
    have hread := readable_of_reserved hr s
    refine ⟨fun v hv => ?_, fun hv => ?_⟩
    · rw [step_of_reservedRead hp hlt h4 hr]
      cases hread.symm.trans hv
      rfl
    · cases hread.symm.trans hv
  | some r =>
    cases Reg.offset_of_ofOffset hr
    have hstep := step_of_registerRead hp
    rw [readRegister_eq_readable, show readable (taken s a rest) r.offset = readable s r.offset from rfl] at hstep
    refine ⟨fun v hv => ?_, fun hv => ⟨Config.freeWord s.draws, s.draws + 1, ?_⟩⟩
    · rw [hstep, hv]
      rfl
    · rw [hstep, hv]
      rfl

/-- Settles O48: a write of either operand register is no violation in any state. -/
theorem operandWritesStore : Obligations.OperandWritesStore := by
  intro s a rest v
  refine ⟨fun hp => ?_, fun hp => ?_⟩
  · exact step_of_wordWrite (r := .opa) hp
  · exact step_of_wordWrite (r := .opb) hp

/-- R39: the registers from offset 0x00C on are read-only. -/
theorem writeRegister_of_readOnly {r : Reg} (hr : 0x00C ≤ r.offset) (v : Word) (s : State) :
    writeRegister r v s = .next s := by
  cases r
  case opa | opb | cmd => exact absurd hr (by decide)
  all_goals rfl

/-- R34, R62: the buffer has no byte at an index beyond it, and none at all without the companion unit. -/
theorem hasBufByte_eq_false {k : Nat} {s : State} (h : s.cfg.hasCompanion = false ∨ s.cfg.bufLen.val ≤ k) :
    hasBufByte k s = false := by
  rcases h with h | h <;> simp [hasBufByte, h]

/-- Settles O51: a read-only or reserved word of the register range, or a byte that the buffer does not have. -/
theorem readOnlyAndReservedOffsets : Obligations.ReadOnlyAndReservedOffsets := by
  intro s a rest off d
  refine ⟨fun hp hge hlt h4 => ?_, fun hp hge hlt h4 => ?_, fun hge hno => ?_⟩
  · cases hr : Reg.ofOffset off with
    | none => exact step_of_reservedWrite hp hlt h4 hr
    | some r =>
      cases Reg.offset_of_ofOffset hr
      rw [step_of_registerWrite hp, writeRegister_of_readOnly hge]
  · cases hr : Reg.ofOffset off with
    | none => exact step_of_reservedRead hp hlt h4 hr
    | some r =>
      have hle := r.offset_le
      rw [Reg.offset_of_ofOffset hr] at hge
      omega
  · have hbyte : hasBufByte (off - 0x1000) (taken s a rest) = false := hasBufByte_eq_false hno
    refine ⟨fun hp => ?_, fun hp => ?_⟩
    · rw [step_of_bufWrite hp hge, writeBufWindow, hbyte]
      rfl
    · rw [step_of_bufRead hp hge, readBufWindow, hbyte]
      rfl

/-- R27: a legal word written to CMD of an idle block, with its operands written, starts its command. -/
theorem writeCmd_of_legal {s : State} {w : Word} {i : Instr} (hidle : s.status.busy = false)
    (hd : decode s.cfg.hasCompanion w = .ok i) (ho : operandsWritten i s = true) :
    writeRegister .cmd w s = .next (s.issue w) := by
  simp [writeRegister, hidle, startCommand, hd, ho]

/-- Settles O54: the write is of CMD, the block idle, the word legal and its operands written. -/
theorem cmdWriteStartsCommand : Obligations.CmdWriteStartsCommand := by
  intro s a rest w i hp hidle hd ho
  refine ⟨latencyOf_pos .., ?_⟩
  rw [step_of_wordWrite (r := .cmd) hp]
  exact writeCmd_of_legal (s := taken s a rest) hidle hd ho

/-- Settles O56: what an access can write while BUSY, and the three accesses that the spec lets go on then. -/
theorem hostAccessLeavesRunningCommand : Obligations.HostAccessLeavesRunningCommand := by
  refine ⟨fun s t a rest hh hb h => ?_, fun s a rest v _ => ⟨fun hp => ?_, fun hp => ?_, fun hp => ?_⟩⟩
  · rw [hostAccess_frame_of_busy (s := { s with host := rest }) hb ((step_of_access hh).symm.trans h)]
    exact ⟨rfl, rfl, rfl, rfl, rfl, rfl, rfl, rfl, rfl, rfl, rfl⟩
  · exact ⟨_, (operandWritesStore s a rest v).1 hp, rfl, rfl, rfl⟩
  · exact ⟨_, (operandWritesStore s a rest v).2 hp, rfl, rfl, rfl⟩
  · exact ⟨_, step_of_registerRead (r := .status) hp, rfl, rfl, rfl⟩

end Sys2Proof.Machine
end

section
/-! PROOFS. A command from its CMD write to its completion, through any number of cycles (10_state.md R27, 00_scope.md R12). -/

namespace Sys2Proof.Machine

open Sys2Proof.Claims

theorem runSafely_succ (k : Nat) (s : State) :
    runSafely (k + 1) s = (runSafely k s).bind fun t => nextOf (step t) := by
  induction k generalizing s with
  | zero =>
    cases h : step s <;> simp [runSafely, nextOf, h]
  | succ k ih =>
    rw [runSafely]
    cases h : step s with
    | next t => simpa only [runSafely, h] using ih t
    | fault f => simp [runSafely, h]
    | refused r => simp [runSafely, h]

/-- The command `w` that the access `a` wrote to CMD, `n` cycles before its completion, with just these cycles pending before `rest`. -/
def inFlight (s : State) (a : Access) (rest : List HostEvent) (w : Word) (n : Nat) : State :=
  started (taken s a (List.replicate n .cycle ++ rest)) w n

section
variable {s : State} {a : Access} {rest : List HostEvent} {w : Word}

theorem step_inFlight_countdown (n : Nat) :
    step (inFlight s a rest w (n + 2)) = .next (inFlight s a rest w (n + 1)) := by
  have hh : (inFlight s a rest w (n + 2)).host = .cycle :: (List.replicate (n + 1) .cycle ++ rest) := rfl
  exact ((otherCyclesOnlyCountDown _ _).1 n rfl).2 hh

theorem step_inFlight_lastCycle {i : Instr} (hd : decode s.cfg.hasCompanion w = .ok i) :
    step (inFlight s a rest w 1) = exec i (started (taken s a rest) w 1) :=
  (stepRunsDecodedCommand (inFlight s a rest w 1) i rfl hd).2 rest rfl

theorem runSafely_inFlight {i : Instr}
    (hp : Pending s a (List.replicate (latencyOf s.cfg w s.opa s.opb) .cycle ++ rest) 0x008 (.write 4 w.toNat))
    (hidle : s.status.busy = false) (hd : decode s.cfg.hasCompanion w = .ok i) (ho : operandsWritten i s = true)
    (k : Nat) (hk : 1 ≤ k) (hle : k ≤ latencyOf s.cfg w s.opa s.opb) :
    runSafely k s = some (inFlight s a rest w (latencyOf s.cfg w s.opa s.opb + 1 - k)) := by
  obtain ⟨_, hstart⟩ := cmdWriteStartsCommand s a _ w i hp hidle hd ho
  induction k, hk using Nat.le_induction with
  | base =>
    rw [runSafely_succ, runSafely, Option.bind_some, hstart]
    rfl
  | succ k hk ih =>
    obtain ⟨n, hn⟩ := Nat.exists_eq_add_of_lt hle
    have h2 : latencyOf s.cfg w s.opa s.opb + 1 - k = n + 2 := by omega
    have h1 : latencyOf s.cfg w s.opa s.opb + 1 - (k + 1) = n + 1 := by omega
    rw [runSafely_succ, ih (by omega), Option.bind_some, h2, h1, step_inFlight_countdown]
    rfl

end

/-- Settles O6: the write starts the command, each cycle but the last counts down, and the last executes it. -/
theorem commandRunsAfterItsLatency : Obligations.CommandRunsAfterItsLatency := by
  intro s a rest w i hp hidle hd ho
  have hrun := runSafely_inFlight hp hidle hd ho
  refine ⟨?_, hrun⟩
  rw [runSafely_succ, hrun _ (latencyOf_pos ..) le_rfl, Option.bind_some, Nat.add_sub_cancel_left,
    step_inFlight_lastCycle hd]

end Sys2Proof.Machine
end

section
/-! PROOFS. The values after reset, and the status registers as words (10_state.md R26, R30, R31, R37). -/

namespace Sys2Proof.Machine

/-- Two fields side by side are a sum: the upper one is worth its value at the lower one's width. -/
theorem toNat_append_eq_add {m n : Nat} (x : BitVec m) (y : BitVec n) :
    (x ++ y).toNat = x.toNat * 2 ^ n + y.toNat := by
  rw [BitVec.toNat_append, ← Nat.shiftLeft_add_eq_or_of_lt y.isLt, Nat.shiftLeft_eq]

/-- Settles O46: each register is its fields side by side, the reserved ones 0. -/
theorem statusRegistersHaveTheirLayout : Obligations.StatusRegistersHaveTheirLayout := by
  refine ⟨fun t => ?_, fun t => ?_, fun t => ?_⟩
  · apply BitVec.eq_of_toNat_eq
    have hbusy := t.busy.toNat_le
    have hdone := t.done.toNat_le
    have herr := t.err.toNat_le
    have hsticky := t.sticky.toNat_le
    simp only [Status.word, toNat_append_eq_add, BitVec.toNat_ofBool, BitVec.toNat_ofNat]
    omega
  · apply BitVec.eq_of_toNat_eq
    have hvalid := t.valid.toNat_le
    have hfatal := t.fatal.toNat_le
    simp only [RepStat.word, toNat_append_eq_add, BitVec.toNat_ofBool, BitVec.toNat_ofNat]
    omega
  · apply BitVec.eq_of_toNat_eq
    have hactive := t.active.toNat_le
    have hrev := t.rev.toNat_le
    simp only [BsrStat.word, toNat_append_eq_add, BitVec.toNat_ofBool, BitVec.toNat_ofNat]
    omega

/-- Settles O1: the parameters take no part in any of these values. -/
theorem resetLeavesStatedValues : Obligations.ResetLeavesStatedValues := by
  intro cfg
  have hstatus : Status.word { busy := false, done := false, err := false, ecode := 0, sticky := false } = 0 := by decide
  have hrepstat : RepStat.word { valid := false, fatal := false, rep := 0 } = 0 := by decide
  have hbsrstat : BsrStat.word { active := false, rev := false, bit := 0 } = 0 := by decide
  exact ⟨rfl, hstatus, hrepstat, hbsrstat, rfl, rfl, rfl, rfl, rfl, rfl, fun _ => rfl, rfl⟩

end Sys2Proof.Machine
end

section
/-! PROOFS. The memory map's effects: the bytes of BUF (20_memory.md R62 to R64), host reads (R68), and when results change (R67). -/

namespace Sys2Proof.Machine

open Sys2Proof.Claims

section
variable {s : State} {i : Nat}

/-- R34, R62: with the companion unit, the buffer has a byte at each index below its length. -/
theorem hasBufByte_eq_true (hc : s.cfg.hasCompanion = true) (hi : i < s.cfg.bufLen.val) : hasBufByte i s = true := by
  simp [hasBufByte, hc, hi]

theorem writeBufWindow_of_idle (hb : hasBufByte i s = true) (hidle : s.status.busy = false) (v : Byte) :
    writeBufWindow i v s = .next { s with buf := s.buf.write i v } := by
  simp [writeBufWindow, hb, hidle]

theorem readBufWindow_of_written {y : Byte} (hb : hasBufByte i s = true) (hy : s.buf.read i = some y) :
    readBufWindow i s = s.answerWith (y.setWidth 32) := by
  simp [readBufWindow, hb, State.afterBufRead, State.bufByte, hy]

theorem readBufWindow_of_unwritten (hb : hasBufByte i s = true) (hn : s.buf.read i = none) :
    readBufWindow i s = s.drawn.answerWith ((Config.freeByte s.draws).setWidth 32) := by
  simp [readBufWindow, hb, State.afterBufRead, State.bufByte, hn]

end

section
variable {s : State} {a : Access} {rest : List HostEvent} {i : Nat}

theorem step_of_byteRead (h : Pending s a rest (0x1000 + i) (.read 1)) :
    step s = .next (readBufWindow i (taken s a rest)) := by
  rw [step_of_bufRead h (Nat.le_add_right ..), Nat.add_sub_cancel_left]

theorem step_of_byteWrite {v : Byte} (h : Pending s a rest (0x1000 + i) (.write 1 v.toNat)) :
    step s = writeBufWindow i v (taken s a rest) := by
  rw [step_of_bufWrite h (Nat.le_add_right ..), Nat.add_sub_cancel_left, BitVec.ofNat_toNat, BitVec.setWidth_eq]

end

/-- R63, R64: a byte of the buffer after a write, the written one and any other. -/
theorem read_write (m : Memory) (i : Nat) (v : Byte) (j : Nat) :
    (Memory.write m i v).read j = if j = i then some v else m.read j := by
  split
  case isTrue h => rw [h, read_write_same]
  case isFalse h => exact read_write_other m i j v h

/-- Settles O22: a cycle that is not a command's last only counts down, and no host access writes a result. -/
theorem resultsChangeOnlyAtCompletionOrReset : Obligations.ResultsChangeOnlyAtCompletionOrReset := by
  intro s t h hreset hne
  rcases step_next_cases h with ⟨rest, hh, hc⟩ | ⟨rest, hh, _⟩ | ⟨a, rest, _, ha⟩
  · have hcycle : s.host = [] ∨ ∃ rest, s.host = .cycle :: rest := hh.imp_right fun hh => ⟨rest, hh⟩
    rcases clock_next_cases hc with ⟨_, rfl⟩ | ⟨hlast, _⟩ | ⟨hlast, _⟩
    · simp at hne
    · exact ⟨hlast, hcycle⟩
    · exact ⟨hlast, hcycle⟩
  · exact absurd hh (hreset rest)
  · rw [hostAccess_frame ha] at hne
    simp at hne

/-- Settles O49: the write reaches a byte the buffer has, and reading after a write tells the bytes apart. -/
theorem bufferWriteStoresOneByte : Obligations.BufferWriteStoresOneByte := by
  intro s a rest i v hp hc hi hidle
  have hb : hasBufByte i (taken s a rest) = true := hasBufByte_eq_true hc hi
  refine ⟨s.buf.write i v, ?_, read_write s.buf i v⟩
  rw [step_of_byteWrite hp, writeBufWindow_of_idle hb hidle]
  rfl

/-- Settles O50: the read reaches a byte the buffer has, which the host has written or which is a draw. -/
theorem bufferReadReturnsTheByte : Obligations.BufferReadReturnsTheByte := by
  intro s a rest i hp hc hi
  have hb : hasBufByte i (taken s a rest) = true := hasBufByte_eq_true hc hi
  refine ⟨fun y hy => ?_, fun hn => ⟨Config.freeByte s.draws, s.draws + 1, ?_⟩⟩
  · rw [step_of_byteRead hp, readBufWindow_of_written hb hy]
    rfl
  · rw [step_of_byteRead hp, readBufWindow_of_unwritten hb hn]
    rfl

/-- Settles O52: an access that goes on is a read, with just these fields changed, or a write, which this one is not. -/
theorem hostReadsHaveNoSideEffect : Obligations.HostReadsHaveNoSideEffect := by
  intro s t a rest n hh htr h
  rcases hostAccess_cases a _ t ((step_of_access hh).symm.trans h) with ⟨_, _, _, _, rfl⟩ | ⟨_, _, hw, _⟩
  · rfl
  · cases htr.symm.trans hw

end Sys2Proof.Machine
end

section
/-! PROOFS. The decoder said once, by the command that the OP value names, and the encoder beside it: each reads or writes just the fields
the command takes (30_encoding.md R80 to R86). -/

namespace Sys2Proof

/-- The command with the same OP value as `i` and the operands that the fields of the word `w` say. -/
def Instr.withFieldsOf (w : Word) : Instr → Instr
  | .bsrInit _ _ => .bsrInit (cmdBitoff w) (cmdRev w)
  | .prep _ => .prep (Fmt.ofCode (cmdFmt w))
  | .and _  => .and (Fmt.ofCode (cmdFmt w))
  | .or _   => .or (Fmt.ofCode (cmdFmt w))
  | .xor _  => .xor (Fmt.ofCode (cmdFmt w))
  | .nand _ => .nand (Fmt.ofCode (cmdFmt w))
  | .nor _  => .nor (Fmt.ofCode (cmdFmt w))
  | .xxor _ => .xxor (Fmt.ofCode (cmdFmt w))
  | i => i

/-- R86 conditions 4 and 5: the decoder of the fields of `i`'s kind of command. -/
def Instr.decodeFields (w : Word) : Instr → Except DecodeError Instr
  | .bsrInit _ _ => decodeBsrInit w
  | .prep _ => decodeFmt .prep w
  | .and _  => decodeFmt .and w
  | .or _   => decodeFmt .or w
  | .xor _  => decodeFmt .xor w
  | .nand _ => decodeFmt .nand w
  | .nor _  => decodeFmt .nor w
  | .xxor _ => decodeFmt .xxor w
  | i => decodePlain i w

/-- R86 conditions 3 to 5: the fields of `w` that a command with the OP value of `i` does not take are 0. -/
def Instr.FieldsOk (i : Instr) (w : Word) : Prop :=
  cmdRsv w = 0 ∧ (cmdNoBits w = true ∨ i.opcode = 0x01) ∧ (cmdFmt w = 0 ∨ i.opcode ∈ Claims.fmtOps)

/-- One command for each OP value, in the order of the opcode table. -/
def commands : List Instr :=
  [.bsrInit 0 false, .bsrNext, .repget, .ones, .twos, .smag, .tc2sm, .sm2tc, .prep (.other 0), .and (.other 0), .or (.other 0),
   .xor (.other 0), .nand (.other 0), .nor (.other 0), .xxor (.other 0), .bxor, .add, .sub, .mul, .div, .mod, .sqrt, .log, .log2]

/-! The encoder -/

theorem encode_fields (i : Instr) : Laws.Encoding.Statement i := by
  cases i
  exacts [Laws.Encoding.bsrInit .., Laws.Encoding.bsrNext, Laws.Encoding.repget, Laws.Encoding.ones, Laws.Encoding.twos,
    Laws.Encoding.smag, Laws.Encoding.tc2sm, Laws.Encoding.sm2tc, Laws.Encoding.prep _, Laws.Encoding.and _, Laws.Encoding.or _,
    Laws.Encoding.xor _, Laws.Encoding.nand _, Laws.Encoding.nor _, Laws.Encoding.xxor _, Laws.Encoding.bxor, Laws.Encoding.add,
    Laws.Encoding.sub, Laws.Encoding.mul, Laws.Encoding.div, Laws.Encoding.mod, Laws.Encoding.sqrt, Laws.Encoding.log,
    Laws.Encoding.log2]

@[simp] theorem cmdOp_encode (i : Instr) : cmdOp (encode i) = i.opcode := by
  obtain ⟨hop, _, _⟩ := encode_fields i
  exact hop

@[simp] theorem cmdRsv_encode (i : Instr) : cmdRsv (encode i) = 0 := by
  obtain ⟨_, _, hrsv⟩ := encode_fields i
  exact hrsv

theorem eq_cmdWord_iff {w : Word} {rev : Bool} {bitoff : BitVec 3} {fmt op : BitVec 8} :
    w = cmdWord rev bitoff fmt op ↔
      cmdRsv w = 0 ∧ cmdRev w = rev ∧ cmdBitoff w = bitoff ∧ cmdFmt w = fmt ∧ cmdOp w = op := by
  constructor
  · rintro rfl
    simp
  · rintro ⟨hrsv, rfl, rfl, rfl, rfl⟩
    exact (cmdWord_fields w hrsv).symm

/-- R85: the operands of a well-formed command are in its word. -/
theorem withFieldsOf_encode {i : Instr} (h : i.wf = true) : i.withFieldsOf (encode i) = i := by
  cases i
  case prep f | and f | or f | xor f | nand f | nor f | xxor f =>
    simp [Instr.withFieldsOf, encode, Fmt.ofCode_code f h]
  all_goals simp [Instr.withFieldsOf, encode]

section
variable {w : Word} {i j : Instr}

theorem withFieldsOf_wf : (j.withFieldsOf w).wf = true := by
  cases j <;> simp [Instr.withFieldsOf, Instr.wf]

theorem withFieldsOf_mnemonic : (j.withFieldsOf w).mnemonic = j.mnemonic := by
  cases j <;> rfl

/-- A word whose unused fields are 0 is the word of the command it says. -/
theorem encode_withFieldsOf_iff (hop : cmdOp w = j.opcode) : encode (j.withFieldsOf w) = w ↔ j.FieldsOk w := by
  rw [eq_comm]
  cases j <;> simp [Instr.withFieldsOf, Instr.FieldsOk, encode, eq_cmdWord_iff, hop, cmdNoBits_iff, Instr.opcode,
    Claims.fmtOps, and_assoc]

/-! The decoder -/

theorem decodePlain_eq_ok_iff :
    decodePlain j w = .ok i ↔ cmdNoBits w = true ∧ cmdFmt w = 0 ∧ i = j := by
  unfold decodePlain
  by_cases hfmt : cmdFmt w = 0#8 <;> cases cmdNoBits w <;> simp [hfmt, eq_comm]

theorem decodeFmt_eq_ok_iff {c : Fmt → Instr} :
    decodeFmt c w = .ok i ↔ cmdNoBits w = true ∧ i = c (Fmt.ofCode (cmdFmt w)) := by
  unfold decodeFmt
  cases cmdNoBits w <;> simp [eq_comm]

theorem decodeBsrInit_eq_ok_iff :
    decodeBsrInit w = .ok i ↔ cmdFmt w = 0 ∧ i = .bsrInit (cmdBitoff w) (cmdRev w) := by
  unfold decodeBsrInit
  by_cases hfmt : cmdFmt w = 0#8 <;> simp [hfmt, eq_comm]

theorem decodeFields_eq_ok_iff (hrsv : cmdRsv w = 0) : j.decodeFields w = .ok i ↔ j.FieldsOk w ∧ i = j.withFieldsOf w := by
  cases j <;> simp [Instr.decodeFields, decodePlain_eq_ok_iff, decodeFmt_eq_ok_iff, decodeBsrInit_eq_ok_iff, Instr.FieldsOk,
    Instr.withFieldsOf, hrsv, Instr.opcode, Claims.fmtOps, and_assoc]

theorem decode_of_reserved {hasCompanion : Bool} (hrsv : cmdRsv w ≠ 0) : decode hasCompanion w = .error .reservedBits :=
  if_pos hrsv

/-- R86 conditions 2, 4 and 5, for a word whose OP value is assigned. -/
theorem decode_of_opcode {hasCompanion : Bool} (hrsv : cmdRsv w = 0) (hop : cmdOp w = j.opcode) :
    decode hasCompanion w =
      if j.isCompanion = true ∧ hasCompanion = false then .error .companionAbsent else j.decodeFields w := by
  cases j <;> cases hasCompanion <;>
    simp [decode, hrsv, hop, Instr.opcode, Instr.isCompanion, Instr.decodeFields, decodeCompanion]

/-- R86: which words decode under the OP value of `j`, and to what. -/
theorem decode_eq_ok_iff {hasCompanion : Bool} (hop : cmdOp w = j.opcode) :
    decode hasCompanion w = .ok i ↔
      j.FieldsOk w ∧ (j.isCompanion = true → hasCompanion = true) ∧ i = j.withFieldsOf w := by
  by_cases hrsv : cmdRsv w = 0
  · rw [decode_of_opcode hrsv hop]
    by_cases habsent : j.isCompanion = true ∧ hasCompanion = false
    · simp [habsent]
    · have hpresent : j.isCompanion = true → hasCompanion = true := by simpa using habsent
      rw [if_neg habsent, decodeFields_eq_ok_iff hrsv, and_iff_right hpresent]
  · rw [decode_of_reserved hrsv]
    exact ⟨nofun, fun ⟨⟨h, _⟩, _⟩ => absurd h hrsv⟩

/-- R86 condition 1: a word that decodes has the OP value of a command. -/
theorem opcode_mem_of_decode {hasCompanion : Bool} (h : decode hasCompanion w = .ok i) :
    cmdOp w ∈ commands.map Instr.opcode := by
  unfold decode at h
  split at h
  · cases h
  · split at h
    case h_25 => cases h
    all_goals
      rename_i hop
      rw [← BitVec.setWidth_eq (cmdOp w), ← BitVec.ofNat_toNat, hop]
      decide

/-- What the decoder gives is a command with the operands of the word, and the word is legal for it. -/
theorem exists_command_of_decode {hasCompanion : Bool} (h : decode hasCompanion w = .ok i) :
    ∃ j ∈ commands, cmdOp w = j.opcode ∧ j.FieldsOk w ∧ (j.isCompanion = true → hasCompanion = true) ∧
      i = j.withFieldsOf w := by
  obtain ⟨j, hj, hop⟩ := List.mem_map.mp (opcode_mem_of_decode h)
  exact ⟨j, hj, hop.symm, (decode_eq_ok_iff hop.symm).mp h⟩

end

end Sys2Proof
end

section
/-! PROOFS. Decoder and encoder are inverse to each other, and exactly the legal words decode (30_encoding.md R80 to R88). -/

namespace Sys2Proof

open Machine Claims

/-- Settles O8: the command's own word says its OP value, its operands and nothing else. -/
theorem decodeOfEncodeIsTheCommand : Obligations.DecodeOfEncodeIsTheCommand := by
  intro i hwf
  have hcmd : i.withFieldsOf (encode i) = i := withFieldsOf_encode hwf
  have hfields : i.FieldsOk (encode i) := (encode_withFieldsOf_iff (cmdOp_encode i)).mp (by rw [hcmd])
  refine ⟨?_, fun hcore => ?_⟩
  · exact (decode_eq_ok_iff (cmdOp_encode i)).mpr ⟨hfields, fun _ => rfl, hcmd.symm⟩
  · exact (decode_eq_ok_iff (cmdOp_encode i)).mpr ⟨hfields, by simp [hcore], hcmd.symm⟩

/-- Settles O9: the command has the word's OP value and takes every field of the word that is not 0. -/
theorem encodeOfDecodeIsTheWord : Obligations.EncodeOfDecodeIsTheWord := by
  intro hasCompanion w i h
  obtain ⟨j, _, hop, hfields, _, rfl⟩ := exists_command_of_decode h
  exact ⟨(encode_withFieldsOf_iff hop).mpr hfields, withFieldsOf_wf⟩

/-! Legal words -/

/-- R83, R88: the OP values of the commands are the core ones and the companion ones. -/
theorem exists_command_iff {op : BitVec 8} :
    (∃ j ∈ commands, j.opcode = op) ↔ op ∈ coreOps ∨ op ∈ companionOps := by
  rw [← List.mem_map, ← List.mem_append]
  exact List.Perm.mem_iff (by decide)

theorem opcode_mem_coreOps_iff (j : Instr) : j.opcode ∈ coreOps ↔ j.isCompanion = false := by
  cases j <;> simp [Instr.opcode, Instr.isCompanion, coreOps]

theorem opcode_mem_companionOps_iff (j : Instr) : j.opcode ∈ companionOps ↔ j.isCompanion = true := by
  cases j <;> simp [Instr.opcode, Instr.isCompanion, companionOps]

theorem legal_iff {hasCompanion : Bool} {w : Word} {j : Instr} (hop : cmdOp w = j.opcode) :
    Legal hasCompanion w ↔ j.FieldsOk w ∧ (j.isCompanion = true → hasCompanion = true) := by
  have hbits : w.extractLsb' 16 4 = 0 ↔ cmdNoBits w = true := beq_iff_eq.symm
  have hops : cmdOp w = w.extractLsb' 0 8 := rfl
  rw [Legal, hbits, ← hops, hop, opcode_mem_coreOps_iff, opcode_mem_companionOps_iff]
  constructor
  · rintro ⟨_, hcomp, hrsv, hfmt, hnoBits⟩
    exact ⟨⟨hrsv, hnoBits, hfmt⟩, fun hj => hcomp.resolve_left (by simp [hj])⟩
  · rintro ⟨⟨hrsv, hnoBits, hfmt⟩, hcomp⟩
    have hcore : j.isCompanion = false ∨ j.isCompanion = true := (Bool.eq_false_or_eq_true _).symm
    exact ⟨hcore, hcore.imp_right hcomp, hrsv, hfmt, hnoBits⟩

/-- R86: exactly the legal words decode. -/
theorem decodes_iff_legal (hasCompanion : Bool) (w : Word) : (∃ i, decode hasCompanion w = .ok i) ↔ Legal hasCompanion w := by
  constructor
  · rintro ⟨i, h⟩
    obtain ⟨_, _, hop, hfields, hcomp, _⟩ := exists_command_of_decode h
    exact (legal_iff hop).mpr ⟨hfields, hcomp⟩
  · intro h
    obtain ⟨j, _, hop⟩ := exists_command_iff.mpr h.1
    obtain ⟨hfields, hcomp⟩ := (legal_iff hop.symm).mp h
    exact ⟨_, (decode_eq_ok_iff hop.symm).mpr ⟨hfields, hcomp, rfl⟩⟩

/-- R86, R231: an illegal word written to CMD of an idle block completes with ECODE 5, whatever the operands. -/
theorem writeCmd_of_illegal {s : State} {w : Word} (hidle : s.status.busy = false) (h : ¬ Legal s.cfg.hasCompanion w) :
    writeRegister .cmd w s = .next { s with cmd := w, status := errStatus 5, remaining := 0 } := by
  rcases startCommand_cases w s with ⟨_, _, hs⟩ | ⟨i, hd, _⟩ | ⟨i, hd, _⟩
  · simp only [writeRegister, hidle]
    exact hs
  · exact absurd ((decodes_iff_legal _ w).mp ⟨i, hd⟩) h
  · exact absurd ((decodes_iff_legal _ w).mp ⟨i, hd⟩) h

/-- Settles O10: legality is what the decoder tests, and the write is of CMD, the block idle and the word illegal. -/
theorem exactlyLegalWordsDecode : Obligations.ExactlyLegalWordsDecode := by
  refine ⟨decodes_iff_legal, fun s a rest w hp hidle h => ?_⟩
  rw [step_of_wordWrite (r := .cmd) hp]
  exact writeCmd_of_illegal (s := taken s a rest) hidle h

/-! Companion commands -/

theorem exec_eq_companion {i : Instr} (h : i.isCompanion = true) (s : State) : ∃ effect, exec i s = companion s effect := by
  cases i
  case bsrInit | bsrNext | repget | and | or | xor | nand | nor | xxor | bxor => exact ⟨_, rfl⟩
  all_goals cases h

/-- Settles O45: the word has a companion OP value, and the command asks for the unit before any effect. -/
theorem companionCommandsAreIllegalWithoutIt : Obligations.CompanionCommandsAreIllegalWithoutIt := by
  intro i s hi hc
  constructor
  · rw [decode_of_opcode (cmdRsv_encode i) (cmdOp_encode i), if_pos ⟨hi, rfl⟩]
  · obtain ⟨effect, he⟩ := exec_eq_companion hi s
    rw [he, companion, hc]
    rfl

/-- Settles O13: the decoder evaluated on the ten words. -/
theorem sampleWordsDecodeAsSpecified : Obligations.SampleWordsDecodeAsSpecified := by
  unfold Obligations.SampleWordsDecodeAsSpecified
  decide

end Sys2Proof
end

section
/-! PROOFS. The opcode table: its rows are the commands' OP values with masks of the fields the commands do not take (30_encoding.md
R87). -/

namespace Sys2Proof

open Claims

/-- R87: the bits that tell the words of a command: all but the fields the command takes. -/
def Instr.mask (i : Instr) : Word :=
  if i.opcode = 0x01 then 0xFFF0FFFF else if i.opcode ∈ fmtOps then 0xFFFF00FF else 0xFFFFFFFF

/-- R87: the row of a command. -/
def Instr.row (i : Instr) : OpcodeRow := ⟨i.mnemonic, cmdWord false 0 0 i.opcode, i.mask, i.isCompanion⟩

theorem opcodeTable_eq_map_row : opcodeTable = commands.map Instr.row := by
  decide

theorem commands_opcode_nodup : (commands.map Instr.opcode).Nodup := by
  decide

section
variable (w m : Word)

theorem cmdOp_and : cmdOp (w &&& m) = cmdOp w &&& cmdOp m := BitVec.extractLsb'_and

theorem cmdFmt_and : cmdFmt (w &&& m) = cmdFmt w &&& cmdFmt m := BitVec.extractLsb'_and

theorem cmdBitoff_and : cmdBitoff (w &&& m) = cmdBitoff w &&& cmdBitoff m := BitVec.extractLsb'_and

theorem cmdRsv_and : cmdRsv (w &&& m) = cmdRsv w &&& cmdRsv m := BitVec.extractLsb'_and

theorem cmdRev_and : cmdRev (w &&& m) = (cmdRev w && cmdRev m) := BitVec.getLsbD_and

end

/-- A field under a mask that leaves it out, or not. -/
theorem and_fieldMask_eq_zero {n : Nat} (x : BitVec n) (c : Prop) [Decidable c] :
    x &&& (if c then 0 else BitVec.allOnes n) = 0 ↔ x = 0 ∨ c := by
  by_cases hc : c <;> simp [hc]

/-- The mask holds REV, BITOFF and FMT where the command does not take them, and the other fields always. -/
theorem mask_fields (j : Instr) :
    cmdRsv j.mask = BitVec.allOnes 12 ∧ cmdRev j.mask = !decide (j.opcode = 0x01) ∧
      cmdBitoff j.mask = (if j.opcode = 0x01 then 0 else BitVec.allOnes 3) ∧
      cmdFmt j.mask = (if j.opcode ∈ fmtOps then 0 else BitVec.allOnes 8) ∧ cmdOp j.mask = BitVec.allOnes 8 := by
  rw [Instr.mask]
  by_cases h1 : j.opcode = 0x01
  · rw [h1]
    decide
  · by_cases h2 : j.opcode ∈ fmtOps
    · simp only [h1, if_pos h2]
      decide
    · simp only [h1, if_neg h2]
      decide

/-- Under its mask a command's word is its OP value alone. -/
theorem and_mask_eq_iff {w : Word} {j : Instr} :
    w &&& j.mask = cmdWord false 0 0 j.opcode ↔ cmdOp w = j.opcode ∧ j.FieldsOk w := by
  obtain ⟨hrsv, hrev, hbitoff, hfmt, hop⟩ := mask_fields j
  rw [eq_cmdWord_iff, cmdRsv_and, cmdRev_and, cmdBitoff_and, cmdFmt_and, cmdOp_and, Instr.FieldsOk, cmdNoBits_iff,
    hrsv, hrev, hbitoff, hfmt, hop, and_fieldMask_eq_zero, and_fieldMask_eq_zero, BitVec.and_allOnes, BitVec.and_allOnes,
    Bool.and_eq_false_iff, Bool.not_eq_false_eq_eq_true, decide_eq_true_iff]
  tauto

/-- R87: a row takes just the legal words with its command's OP value. -/
theorem takes_row_iff {hasCompanion : Bool} {w : Word} {j : Instr} :
    j.row.takes hasCompanion w = true ↔
      cmdOp w = j.opcode ∧ j.FieldsOk w ∧ (j.isCompanion = true → hasCompanion = true) := by
  rw [OpcodeRow.takes, Bool.and_eq_true, beq_iff_eq]
  rw [show w &&& j.row.mask = j.row.matchBits ↔ _ from and_mask_eq_iff, and_assoc]
  cases h : j.isCompanion <;> simp [Instr.row, h]

/-- R87: a row takes just the words that decode to its command, with any operands. -/
theorem takes_row_iff_decode {hasCompanion : Bool} {w : Word} {j : Instr} :
    j.row.takes hasCompanion w = true ↔ cmdOp w = j.opcode ∧ decode hasCompanion w = .ok (j.withFieldsOf w) := by
  rw [takes_row_iff]
  refine and_congr_right fun hop => ?_
  rw [decode_eq_ok_iff hop, eq_self, and_true]

/-- Settles O12: the rows have different OP values, and a row takes only words with its own. -/
theorem opcodeRowsAreDisjoint : Obligations.OpcodeRowsAreDisjoint := by
  unfold Obligations.OpcodeRowsAreDisjoint
  rw [opcodeTable_eq_map_row, List.pairwise_map]
  refine (List.pairwise_map.mp commands_opcode_nodup).imp ?_
  rintro i j hne w ⟨hi, hj⟩
  exact hne ((takes_row_iff.mp hi).1.symm.trans (takes_row_iff.mp hj).1)

/-- Settles O11: the first row that takes a word is the row of the command the word decodes to. -/
theorem decodeAgreesWithOpcodeTable : Obligations.DecodeAgreesWithOpcodeTable := by
  intro hasCompanion w
  rw [decodeByTable, opcodeTable_eq_map_row, List.find?_map, Option.map_map]
  cases hfind : commands.find? (OpcodeRow.takes hasCompanion w ∘ Instr.row) with
  | some j =>
    have htakes : j.row.takes hasCompanion w = true :=
      List.find?_some (p := OpcodeRow.takes hasCompanion w ∘ Instr.row) hfind
    obtain ⟨_, hd⟩ := takes_row_iff_decode.mp htakes
    rw [hd]
    exact congrArg some withFieldsOf_mnemonic
  | none =>
    cases hd : decode hasCompanion w with
    | error e => rfl
    | ok i =>
      obtain ⟨j, hj, hop, hfields, hcomp, _⟩ := exists_command_of_decode hd
      exact absurd (takes_row_iff.mpr ⟨hop, hfields, hcomp⟩) (List.find?_eq_none.mp hfind j hj)

end Sys2Proof
end

section
/-! PROOFS. The bit-sequence reader: what BSR_INIT and BSR_NEXT do to the cursor, and the elements that are still due at a cursor
(40_bit_sequence_reader.md R101 to R109). -/

namespace Sys2Proof.Machine

open Sys2Proof.Claims

/-- R102, R103: the signed reading is 0 or less just for 0 and where bit 31 is set. -/
theorem elementCount_eq_countOf (b : Word) : elementCount b = countOf b := by
  have hiff : signed32 b ≤ 0 ↔ b = 0 ∨ b.msb = true := by
    have hzero : b = 0 ↔ b.toInt = 0 := BitVec.toInt_inj.symm
    rw [BitVec.msb_eq_toInt, decide_eq_true_iff, hzero, le_iff_lt_or_eq, or_comm]
  simp only [elementCount, countOf, hiff]

theorem bitAt_eq_bitOf (y : Byte) (p : BitVec 3) (rev : Bool) : bitAt y p rev = bitOf y p.toNat rev := by
  cases rev <;> rfl

/-- R105: bit position 7 is followed by 0 of the next byte, as the 3-bit sum has it. -/
theorem produceElement_eq_producesFrom (y : Byte) (s : State) : produceElement y s = producesFrom s y := by
  rw [produceElement, bitAt_eq_bitOf, boolWord, advanceCursor, producesFrom]
  by_cases h7 : s.bsrstat.bit = 7
  · rw [if_pos h7, if_pos h7, h7]
    rfl
  · rw [if_neg h7, if_neg h7]
    rfl

theorem companion_of_present {s : State} (hc : s.cfg.hasCompanion = true) (o : Host.Outcome State Fault Refusal) :
    companion s o = o :=
  if_pos hc

section
variable {s : State} (hc : s.cfg.hasCompanion = true)
include hc

theorem exec_bsrInit (p : BitVec 3) (rev : Bool) :
    exec (.bsrInit p rev) s = .next (s.setCursor s.latch.a p rev (countOf s.latch.b)).succeed := by
  rw [← elementCount_eq_countOf]
  exact companion_of_present hc _

/-- R104: no element is left. -/
theorem exec_bsrNext_of_exhausted (h0 : s.bsrrem = 0) : exec .bsrNext s = .next (s.writeAux 0).succeed :=
  (companion_of_present hc _).trans (if_pos h0)

/-- R106: an element is due beyond the buffer. -/
theorem exec_bsrNext_of_beyond (h0 : s.bsrrem ≠ 0) (hlen : s.cfg.bufLen.val ≤ s.bsrbyte.toNat) :
    exec .bsrNext s = .next { failsWith s 4 with bsrrem := 0, bsrstat := { s.bsrstat with active := false } } :=
  (companion_of_present hc _).trans ((if_neg h0).trans (if_pos hlen))

/-- R105: an element is due within the buffer. -/
theorem exec_bsrNext_of_within (h0 : s.bsrrem ≠ 0) (hlen : s.bsrbyte.toNat < s.cfg.bufLen.val) :
    exec .bsrNext s = .next (producesFrom (s.afterBufRead s.bsrbyte.toNat) (s.bufByte s.bsrbyte.toNat)) := by
  rw [← produceElement_eq_producesFrom]
  exact (companion_of_present hc _).trans ((if_neg h0).trans (if_neg (Nat.not_le.mpr hlen)))

theorem exec_bsrNext_of_written {y : Byte} (h0 : s.bsrrem ≠ 0) (hlen : s.bsrbyte.toNat < s.cfg.bufLen.val)
    (hy : s.buf.read s.bsrbyte.toNat = some y) : exec .bsrNext s = .next (producesFrom s y) := by
  obtain ⟨hbyte, hsame⟩ := bufRead_written _ s y hy
  rw [exec_bsrNext_of_within hc h0 hlen, hbyte, hsame]

end

/-- Settles O41: the companion unit is present, and the count operand asks for `countOf` elements. -/
theorem bsrInitSetsCursor : Obligations.BsrInitSetsCursor :=
  fun _ p rev hc => exec_bsrInit hc p rev

/-- Settles O42: each case of BSR_NEXT, an unwritten byte being one free draw. -/
theorem bsrNextConsumesOneElement : Obligations.BsrNextConsumesOneElement := by
  intro s hc
  refine ⟨exec_bsrNext_of_exhausted hc, exec_bsrNext_of_beyond hc,
    fun h0 hlen => ⟨fun y => exec_bsrNext_of_written hc h0 hlen, fun hnone => ?_⟩⟩
  obtain ⟨_, hdrawn⟩ := bufRead_unwritten _ s hnone
  rw [exec_bsrNext_of_within hc h0 hlen, hdrawn]
  exact ⟨_, s.draws + 1, rfl⟩

/-! The elements due -/

/-- A block with the companion unit whose buffer the host has written with `bytes`. -/
def HoldsBytes (bytes : Nat → Byte) (s : State) : Prop :=
  s.cfg.hasCompanion = true ∧ ∀ j, j < s.cfg.bufLen.val → s.buf.read j = some (bytes j)

/-- R109: the elements of the sequence that are due at the cursor of `s`. -/
def elementsDue (bytes : Nat → Byte) (s : State) : List (Option Bool) :=
  bitSeq bytes s.cfg.bufLen.val s.bsrstat.rev s.bsrrem.toNat s.bsrbyte.toNat s.bsrstat.bit.toNat

/-- R105, R106: how `u` answers, after `t`, for an element, for the sequence failing, and for its end. -/
def AnswersElement (t u : State) : Option (Option Bool) → Prop
  | some (some e) => u.res = (if e then 1 else 0) ∧ u.aux = 1 ∧ u.status = okStatus t
  | some none => u.res = t.res ∧ u.aux = t.aux ∧ u.status = errStatus 4
  | none => u.res = t.res ∧ u.aux = 0 ∧ u.status = okStatus t

section
variable {bytes : Nat → Byte} {s : State}

theorem elementsDue_of_exhausted (h0 : s.bsrrem = 0) : elementsDue bytes s = [] := by
  rw [elementsDue, h0]
  rfl

/-- With an element left, the count is that of the cursor after it and one more. -/
theorem bsrrem_toNat_eq_succ (h0 : s.bsrrem ≠ 0) : s.bsrrem.toNat = (s.bsrrem - 1).toNat + 1 := by
  bv_omega

theorem elementsDue_of_beyond (h0 : s.bsrrem ≠ 0) (hlen : s.cfg.bufLen.val ≤ s.bsrbyte.toNat) :
    elementsDue bytes s = [none] := by
  rw [elementsDue, bsrrem_toNat_eq_succ h0]
  exact if_pos hlen

/-- R105: the cursor's byte within the buffer cannot wrap, and its 3-bit position counts modulo 8. -/
theorem elementsDue_of_within (h0 : s.bsrrem ≠ 0) (hlen : s.bsrbyte.toNat < s.cfg.bufLen.val) (y : Byte) :
    elementsDue bytes s =
      some (bitOf (bytes s.bsrbyte.toNat) s.bsrstat.bit.toNat s.bsrstat.rev) :: elementsDue bytes (producesFrom s y) := by
  have hbyte : (producesFrom s y).bsrbyte.toNat = if s.bsrstat.bit.toNat = 7 then s.bsrbyte.toNat + 1 else s.bsrbyte.toNat := by
    have hlt := s.cfg.bufLen.isLt
    have h7 : s.bsrstat.bit = 7 ↔ s.bsrstat.bit.toNat = 7 := BitVec.toNat_inj.symm
    simp only [producesFrom, h7]
    split
    · bv_omega
    · rfl
  have hbit : (producesFrom s y).bsrstat.bit.toNat = (s.bsrstat.bit.toNat + 1) % 8 := BitVec.toNat_add ..
  rw [elementsDue, bsrrem_toNat_eq_succ h0, bitSeq, if_neg (Nat.not_le.mpr hlen), ← hbyte, ← hbit]
  rfl

/-- One BSR_NEXT answers for the first element due and leaves the others due. -/
theorem exec_bsrNext_elementsDue (h : HoldsBytes bytes s) :
    ∃ u, exec .bsrNext s = .next u ∧ HoldsBytes bytes u ∧ elementsDue bytes u = (elementsDue bytes s).tail ∧
      AnswersElement s u (elementsDue bytes s).head? := by
  obtain ⟨hc, hbytes⟩ := h
  by_cases h0 : s.bsrrem = 0
  · refine ⟨_, exec_bsrNext_of_exhausted hc h0, ⟨hc, hbytes⟩, ?_⟩
    rw [elementsDue_of_exhausted h0, elementsDue_of_exhausted (s := (s.writeAux 0).succeed) h0]
    exact ⟨rfl, rfl, rfl, rfl⟩
  by_cases hlen : s.cfg.bufLen.val ≤ s.bsrbyte.toNat
  · refine ⟨_, exec_bsrNext_of_beyond hc h0 hlen, ⟨hc, hbytes⟩, ?_⟩
    rw [elementsDue_of_beyond h0 hlen, elementsDue_of_exhausted rfl]
    exact ⟨rfl, rfl, rfl, rfl⟩
  · have hlt := Nat.not_le.mp hlen
    refine ⟨_, exec_bsrNext_of_written hc h0 hlt (hbytes _ hlt), ⟨hc, hbytes⟩, ?_⟩
    rw [elementsDue_of_within h0 hlt (bytes s.bsrbyte.toNat)]
    exact ⟨rfl, rfl, rfl, rfl⟩

/-- Each BSR_NEXT takes one element from those due. -/
theorem afterNexts_elementsDue (h : HoldsBytes bytes s) (k : Nat) :
    ∃ t, afterNexts k (.next s) = some t ∧ HoldsBytes bytes t ∧ elementsDue bytes t = (elementsDue bytes s).drop k := by
  induction k with
  | zero => exact ⟨s, rfl, h, rfl⟩
  | succ k ih =>
    obtain ⟨t, hrun, ht, hdue⟩ := ih
    obtain ⟨u, hnext, hu, hdue', _⟩ := exec_bsrNext_elementsDue ht
    refine ⟨u, ?_, hu, ?_⟩
    · rw [afterNexts, hrun, Option.bind_some, hnext]
      rfl
    · rw [hdue', hdue, List.tail_drop]

end

/-- Settles O43: after BSR_INIT the whole sequence is due, `k` BSR_NEXT take its first `k` elements, and the next answers for
the first one left. -/
theorem readerProducesBitSequence : Obligations.ReaderProducesBitSequence := by
  intro s p rev bytes k hc hbytes
  rw [exec_bsrInit hc]
  have hinit : HoldsBytes bytes (s.setCursor s.latch.a p rev (countOf s.latch.b)).succeed := ⟨hc, hbytes⟩
  obtain ⟨t, hrun, ht, hdue⟩ := afterNexts_elementsDue hinit k
  obtain ⟨u, hnext, _, _, hanswer⟩ := exec_bsrNext_elementsDue ht
  rw [hdue, List.head?_drop] at hanswer
  exact ⟨t, u, hrun, hnext, hanswer⟩

end Sys2Proof.Machine
end

section
/-! PROOFS. The representation probe and the converters: the commands that complete with a converted word, the two sign-magnitude
converters as negation of the 31 low bits under a set sign bit, and REPGET before and after the probe (41_representation.md R121 to
R131). -/

namespace Sys2Proof.Machine

open Sys2Proof.Claims

theorem exec_ones (s : State) : exec .ones s = .next (completes s (~~~s.latch.a)) := rfl

theorem exec_twos (s : State) : exec .twos s = .next (completes s (-s.latch.a)) := by
  rw [← twosComplement_eq]
  rfl

theorem exec_smag (s : State) : exec .smag s =
    .next { completes s (magnitude s.latch.a) with aux := signWord s.latch.a, auxWritten := true } := rfl

theorem exec_tc2sm (s : State) : exec .tc2sm s = .next (completes s (tcToSm s.latch.a)) := rfl

theorem exec_sm2tc (s : State) : exec .sm2tc s = .next (completes s (smToTc s.latch.a)) := rfl

theorem latch_a_withA (s : State) (v : Word) : (withA s v).latch.a = v := rfl

/-- R14: bit 31 of a word is its most significant one. -/
theorem getLsbD_31 (v : Word) : v.getLsbD 31 = v.msb := (BitVec.msb_eq_getLsbD_last v).symm

/-- R133: bit 31 is set just where the signed reading is negative. -/
theorem signWord_eq_of_toInt (v : Word) :
    signWord v = if v.toInt < 0 then 0xFFFFFFFF else if v = 0 then 0 else 1 := by
  simp only [signWord, getLsbD_31, BitVec.msb_eq_toInt, decide_eq_true_iff]

/-- Settles O34: TWOS adds 1 to the complement, which negates. -/
theorem onesAndTwosComplement : Obligations.OnesAndTwosComplement :=
  fun s => ⟨exec_ones s, exec_twos s⟩

/-- Settles O35: the product with the sign word is the magnitude, and the sign word goes by the signed reading. -/
theorem smagSplitsMagnitudeAndSign : Obligations.SmagSplitsMagnitudeAndSign := by
  intro s
  rw [exec_smag, magnitude_eq, getLsbD_31, signWord_eq_of_toInt]

/-- Settles O36: each converter in the word's own arithmetic. -/
theorem convertersBetweenSignMagnitudeAndTwos : Obligations.ConvertersBetweenSignMagnitudeAndTwos := by
  intro s
  rw [exec_tc2sm, exec_sm2tc, tcToSm_eq, smToTc_eq, getLsbD_31]
  exact ⟨rfl, rfl⟩

/-! Words as a sign bit before 31 low bits -/

theorem exists_cons (v : Word) : ∃ (sign : Bool) (low : BitVec 31), v = BitVec.cons sign low :=
  ⟨_, _, (BitVec.cons_msb_setWidth v).symm⟩

/-- R128: setting the sign bit keeps the low bits. -/
theorem or_signBitMask (v : Word) : v ||| signBitMask = BitVec.cons true (v.setWidth 31) := by
  obtain ⟨sign, low, rfl⟩ := exists_cons v
  have hmask : signBitMask = BitVec.cons true 0#31 := rfl
  rw [hmask, BitVec.cons_or_cons, Bool.or_true, BitVec.or_zero, BitVec.setWidth_cons]

/-- R128: clearing the sign bit keeps the low bits. -/
theorem setWidth_and_magnitudeMask (v : Word) : (v &&& magnitudeMask).setWidth 31 = v.setWidth 31 := by
  have hmask : magnitudeMask.setWidth 31 = BitVec.allOnes 31 := rfl
  rw [BitVec.setWidth_and, hmask, BitVec.and_allOnes]

/-- R129, R130: both converters negate the low bits under the sign bit, so they are one function. -/
theorem smToTc_eq_tcToSm (v : Word) : smToTc v = tcToSm v := by
  rw [smToTc_eq, tcToSm_eq, or_signBitMask, or_signBitMask, BitVec.setWidth_neg_of_le (by decide),
    BitVec.setWidth_neg_of_le (by decide), setWidth_and_magnitudeMask]

section
variable (low : BitVec 31)

/-- R129: TC2SM negates the low bits of a word with its sign bit set. -/
theorem tcToSm_cons (sign : Bool) : tcToSm (BitVec.cons sign low) = BitVec.cons sign (if sign then -low else low) := by
  rw [tcToSm_eq, getLsbD_31, BitVec.msb_cons]
  cases sign
  · rfl
  · rw [if_pos rfl, if_pos rfl, or_signBitMask, BitVec.setWidth_neg_of_le (by decide), BitVec.setWidth_cons]

/-- R128: the sign bit negates the magnitude. -/
theorem signMagnitudeValue_cons (sign : Bool) :
    signMagnitudeValue (BitVec.cons sign low) = if sign then -(low.toNat : Int) else low.toNat := by
  have hmask : (0x7FFFFFFF : Word) = BitVec.cons false (BitVec.allOnes 31) := rfl
  rw [signMagnitudeValue, BitVec.msb_cons, hmask, BitVec.cons_and_cons, BitVec.and_allOnes]
  cases sign <;> simp

/-- R14: the sign bit weighs -2^31. -/
theorem toInt_cons_31 (sign : Bool) :
    (BitVec.cons sign low : Word).toInt = if sign then (low.toNat : Int) - 2 ^ 31 else (low.toNat : Int) := by
  rw [BitVec.toInt_eq_msb_cond, BitVec.msb_cons, BitVec.toNat_cons']
  cases sign
  · simp
  · simp only [if_true, Bool.toNat_true, Nat.one_shiftLeft]
    omega

end

/-- R131: negating the low bits twice gives them back. -/
theorem tcToSm_tcToSm (v : Word) : tcToSm (tcToSm v) = v := by
  obtain ⟨sign, low, rfl⟩ := exists_cons v
  rw [tcToSm_cons, tcToSm_cons]
  cases sign <;> simp

/-- R131: -2^31 is the one value sign-magnitude does not have. -/
theorem signMagnitudeValue_tcToSm_eq_iff (v : Word) : signMagnitudeValue (tcToSm v) = v.toInt ↔ v ≠ 0x80000000 := by
  obtain ⟨sign, low, rfl⟩ := exists_cons v
  have hmin : (0x80000000 : Word).toInt = -2 ^ 31 := rfl
  have hlt := low.isLt
  rw [tcToSm_cons, signMagnitudeValue_cons, ne_eq, ← BitVec.toInt_inj, hmin, toInt_cons_31]
  cases sign
  · simp only [Bool.false_eq_true, if_false, true_iff]
    omega
  · simp only [if_true, BitVec.toNat_neg]
    omega

/-- Settles O37: complement and negation are involutions, and the sign-magnitude converters are one involution. -/
theorem convertersRoundTrip : Obligations.ConvertersRoundTrip := by
  intro s v
  refine ⟨⟨_, exec_ones _, ?_⟩, ⟨_, exec_twos _, ?_⟩, ⟨_, exec_sm2tc _, ?_⟩, ⟨_, exec_tc2sm _, ?_,
    signMagnitudeValue_tcToSm_eq_iff v⟩⟩
  · rw [exec_ones, latch_a_withA, latch_a_withA, BitVec.not_not]
  · rw [exec_twos, latch_a_withA, latch_a_withA, BitVec.neg_neg]
  · rw [exec_tc2sm, latch_a_withA, latch_a_withA, smToTc_eq_tcToSm, tcToSm_tcToSm]
  · rw [exec_sm2tc, latch_a_withA, latch_a_withA, smToTc_eq_tcToSm, tcToSm_tcToSm]

/-! The probe -/

section
variable {s : State} (hc : s.cfg.hasCompanion = true)
include hc

theorem exec_repget_of_valid (hv : s.repstat.valid = true) :
    exec .repget s = .next (completes s (s.repstat.rep.setWidth 32)) :=
  (companion_of_present hc _).trans (if_pos hv)

theorem exec_repget_of_fatal (hv : s.repstat.valid = false) (hf : s.repstat.fatal = true) :
    exec .repget s = .next (failsWith s 1) :=
  (companion_of_present hc _).trans ((if_neg (Bool.eq_false_iff.mp hv)).trans (if_pos hf))

theorem exec_repget_of_unprobed (hv : s.repstat.valid = false) (hf : s.repstat.fatal = false) :
    exec .repget s = .next (runProbe s) :=
  (companion_of_present hc _).trans ((if_neg (Bool.eq_false_iff.mp hv)).trans (if_neg (Bool.eq_false_iff.mp hf)))

end

/-- R121: the probe of an unprobed host that finds a representation latches its code. -/
theorem runProbe_of_some {s : State} {h : HostRep} {r : Representation} (hf : s.repstat.fatal = false)
    (hrep : s.cfg.hostRep = h) (hp : probe h = some r) :
    runProbe s = { completes s (r.code.setWidth 32) with repstat := { valid := true, fatal := false, rep := r.code } } := by
  rw [runProbe, hrep, hp, ← hf]
  rfl

/-- R121: the probe of a host of no known representation sets FATAL. -/
theorem runProbe_of_none {s : State} {h : HostRep} (hrep : s.cfg.hostRep = h) (hp : probe h = none) :
    runProbe s = { failsWith s 1 with repstat := { s.repstat with fatal := true } } := by
  rw [runProbe, hrep, hp]
  rfl

/-- Settles O44: the three arms, the last by what the probe finds for each host. -/
theorem repgetProbesOnceAndLatches : Obligations.RepgetProbesOnceAndLatches := by
  intro s hc
  refine ⟨exec_repget_of_valid hc, exec_repget_of_fatal hc, fun hv hf => ?_⟩
  rw [exec_repget_of_unprobed hc hv hf]
  cases hrep : s.cfg.hostRep
  case twosComplement | onesComplement | signedMagnitude =>
    rw [runProbe_of_some hf hrep (probe_eq _)]
    rfl
  case other => rw [runProbe_of_none hrep (probe_eq _)]

end Sys2Proof.Machine
end

section
/-! PROOFS. PREP and the bitwise logic commands: conversion by FMT code, the prepared pair under one operation, and the two exclusive
ors (41_representation.md R132, 42_bitwise_logic.md R140 to R147). -/

namespace Sys2Proof.Machine

open Sys2Proof.Claims

/-- R84: a well-formed raw code is the code of no Representation. -/
theorem ne_code_of_wf_other {c : BitVec 8} (hf : (Fmt.other c).wf = true) (r : Representation) : c ≠ r.code := by
  rintro rfl
  rw [Fmt.wf, Representation.ofCode_code] at hf
  cases hf

/-- R132: conversion goes by the FMT code alone. -/
theorem conv_eq_convOf {f : Fmt} (hf : f.wf = true) (v : Word) : conv f v = convOf f.code v := by
  rw [conv_eq]
  cases f with
  | rep r =>
    rw [getLsbD_31]
    cases r <;> rfl
  | other c =>
    have hne := ne_code_of_wf_other hf
    exact ((if_neg (hne .noSign)).trans <| (if_neg (hne .onesComplement)).trans <|
      (if_neg (hne .signedMagnitude)).trans <| if_neg (hne .twosComplement)).symm

/-- R141 to R146: a result on the prepared pair goes to RES; without a pair it is ECODE 2. -/
theorem prepared_writeRes {f : Fmt} (hf : f.wf = true) (op : Word → Word → Word) (s : State) :
    prepared f (fun l r s => s.writeRes (op l r)) s = .next (afterFmt s f op) := by
  rw [afterFmt, ← conv_eq_convOf hf, ← conv_eq_convOf hf]
  obtain ⟨l, r, hl, hr, h⟩ | ⟨hl, h⟩ := prepared_cases f (fun l r s => s.writeRes (op l r)) s
  · rw [h, hl, hr]
    rfl
  · rw [h, hl]
    rfl

/-- Settles O38: the two conversions go to RES and AUX, and they fail together. -/
theorem prepConvertsBothOperands : Obligations.PrepConvertsBothOperands := by
  intro s f hf
  rw [← conv_eq_convOf hf, ← conv_eq_convOf hf]
  obtain ⟨l, r, hl, hr, h⟩ | ⟨hl, h⟩ := prepared_cases f (fun l r s => (s.writeRes l).writeAux r) s
  · rw [hl, hr]
    exact h
  · rw [hl]
    exact h

/-- R88: a logic command where the companion unit is present. -/
theorem companion_prepared_writeRes {s : State} {f : Fmt} (hc : s.cfg.hasCompanion = true) (hf : f.wf = true)
    (op : Word → Word → Word) :
    companion s (prepared f (fun l r s => s.writeRes (op l r)) s) = .next (afterFmt s f op) :=
  (companion_of_present hc _).trans (prepared_writeRes hf op s)

/-- R143, R146: the bits in just one of two words are those in the second alone or in the first alone. -/
theorem xor_eq_or_and_not (l r : Word) : (~~~l &&& r) ||| (l &&& ~~~r) = l ^^^ r := by
  ext i
  simp only [BitVec.getElem_or, BitVec.getElem_and, BitVec.getElem_not, BitVec.getElem_xor]
  cases l[i] <;> cases r[i] <;> rfl

/-- R146: XXOR completes as XOR does, with the companion unit or without. -/
theorem exec_xxor_eq_exec_xor (f : Fmt) (s : State) : exec (.xxor f) s = exec (.xor f) s := by
  simp only [exec, execXxor, execXor, xor_eq_or_and_not]

/-- Settles O39: each command's own operation on the prepared pair. -/
theorem logicCommandsCombineConvertedOperands : Obligations.LogicCommandsCombineConvertedOperands := by
  intro s f hc hf
  have hexec := companion_prepared_writeRes hc hf
  exact ⟨hexec _, hexec _, hexec _, hexec _, hexec _, hexec _, exec_xxor_eq_exec_xor f s⟩

theorem truth_eq_not_decide (v : Word) : truth v = !decide (v = 0) := rfl

/-- R147: the exclusive or of two truth values is 1 just where one word is 0 and the other is not. -/
theorem boolWord_boolXor_truth (a b : Word) :
    boolWord (boolXor (truth a) (truth b)) = if a = 0 then (if b = 0 then 0 else 1) else (if b = 0 then 1 else 0) := by
  by_cases ha : a = 0 <;> by_cases hb : b = 0 <;> simp only [truth_eq_not_decide, ha, hb, if_true, if_false] <;> rfl

/-- Settles O40: BXOR writes the exclusive or of the operands' truth values. -/
theorem bxorIsBooleanXor : Obligations.BxorIsBooleanXor := by
  intro s hc
  rw [← boolWord_boolXor_truth]
  exact companion_of_present hc _

end Sys2Proof.Machine
end

section
/-! PROOFS. ADD and SUB: the result of the carry-propagate adder and of the subtractor built on it goes to RES (43_adder.md R160 to
R163). -/

namespace Sys2Proof.Machine

open Sys2Proof.Claims

theorem exec_add (s : State) : exec .add s = .next (completes s (adder s.latch.a s.latch.b)) := rfl

theorem exec_sub (s : State) : exec .sub s = .next (completes s (subtractor s.latch.a s.latch.b)) := rfl

/-- Settles O25: ADD completes with the adder's result, and each iteration of the adder keeps the sum. -/
theorem addIsSumModuloWord : Obligations.AddIsSumModuloWord := by
  intro s
  rw [exec_add, adder_eq]

/-- Settles O26: SUB completes with the subtractor's result, the sum of `a` and the negation of `b`. -/
theorem subIsDifferenceModuloWord : Obligations.SubIsDifferenceModuloWord := by
  intro s
  rw [exec_sub, subtractor_eq]

end Sys2Proof.Machine
end

section
/-! PROOFS. MUL: the result of the shift-and-add multiplier goes to RES (44_multiplier.md R170, R171). -/

namespace Sys2Proof.Machine

open Sys2Proof.Claims

theorem exec_mul (s : State) : exec .mul s = .next (completes s (multiplier s.latch.a s.latch.b)) := rfl

/-- Settles O27: MUL completes with the multiplier's result, and each iteration of the multiplier keeps accumulator plus product. -/
theorem mulIsLowWordOfProduct : Obligations.MulIsLowWordOfProduct := by
  intro s
  rw [exec_mul, multiplier_eq]

end Sys2Proof.Machine
end

section
/-! PROOFS. DIV and MOD: the restoring divider's quotient and remainder go to RES; a divisor of 0 is ECODE 3 (45_divider.md R180 to
R185). -/

namespace Sys2Proof.Machine

open Sys2Proof.Claims

section
variable {s : State}

/-- R185: both commands check the divisor before they divide. -/
theorem exec_div_of_divisor_eq_zero (hb : s.latch.b = 0) : exec .div s = .next (failsWith s 3) := if_pos hb

theorem exec_mod_of_divisor_eq_zero (hb : s.latch.b = 0) : exec .mod s = .next (failsWith s 3) := if_pos hb

/-- R181: DIV writes the divider's quotient. -/
theorem exec_div_of_divisor_ne_zero (hb : s.latch.b ≠ 0) :
    exec .div s = .next (completes s (s.latch.a / s.latch.b)) := by
  have hdiv : exec .div s = .next (completes s (divCore s.latch.a s.latch.b).q) := if_neg hb
  rw [hdiv, divCore_eq _ _ hb]

/-- R182: MOD writes the divider's remainder. -/
theorem exec_mod_of_divisor_ne_zero (hb : s.latch.b ≠ 0) :
    exec .mod s = .next (completes s (s.latch.a % s.latch.b)) := by
  have hmod : exec .mod s = .next (completes s (divCore s.latch.a s.latch.b).r) := if_neg hb
  rw [hmod, divCore_eq _ _ hb]

end

/-- R183: quotient times divisor, plus remainder, is the dividend, and nothing wraps. -/
theorem toNat_udiv_mul_add_toNat_umod (a b : Word) : (a / b).toNat * b.toNat + (a % b).toNat = a.toNat := by
  rw [BitVec.toNat_udiv, BitVec.toNat_umod, Nat.div_add_mod']

/-- Settles O28: a divisor of 0 fails, and any other gives what the restoring divider computes. -/
theorem divAndModAreQuotientAndRemainder : Obligations.DivAndModAreQuotientAndRemainder := fun _ =>
  ⟨fun hb => ⟨exec_div_of_divisor_eq_zero hb, exec_mod_of_divisor_eq_zero hb⟩,
    fun hb => ⟨exec_div_of_divisor_ne_zero hb, exec_mod_of_divisor_ne_zero hb⟩⟩

/-- Settles O29: the quotient and the remainder that the two commands write satisfy the identity. -/
theorem divisionIdentityHolds : Obligations.DivisionIdentityHolds := fun s hb =>
  ⟨s.latch.a / s.latch.b, s.latch.a % s.latch.b, exec_div_of_divisor_ne_zero hb, exec_mod_of_divisor_ne_zero hb,
    toNat_udiv_mul_add_toNat_umod s.latch.a s.latch.b, BitVec.umod_lt _ ((BitVec.pos_iff_ne_zero _).mpr hb)⟩

end Sys2Proof.Machine
end

section
/-! PROOFS. SQRT: the digit-by-digit square root of OPA goes to RES (46_square_root.md R200 to R202). -/

namespace Sys2Proof.Machine

open Sys2Proof.Claims

theorem exec_sqrt (s : State) : exec .sqrt s = .next (completes s (sqrtCore s.latch.a)) := rfl

/-- Settles O30: each digit of the square root keeps the invariant of `sqrtLoop_spec`, which after the last digit is the law. -/
theorem sqrtIsFloorSquareRoot : Obligations.SqrtIsFloorSquareRoot := by
  intro s
  obtain ⟨hle, hlt, hbound⟩ := sqrtCore_spec s.latch.a
  exact ⟨sqrtCore s.latch.a, exec_sqrt s, hle, hlt, Nat.le_of_lt_succ hbound⟩

end Sys2Proof.Machine
end

section
/-! PROOFS. LOG and LOG2: the counts of the general-base and the binary loop go to RES; base 0 is ECODE 3 and base 1 is ECODE 6
(47_logarithm.md R210 to R214). -/

namespace Sys2Proof.Machine

open Sys2Proof.Claims

section
variable {s : State}

theorem exec_log_of_ok {c : Word} (h : logCore s.latch.a s.latch.b = .ok c) : exec .log s = .next (completes s c) := by
  rw [exec, execLog, h]
  rfl

theorem exec_log_of_error {e : ErrorCode} (h : logCore s.latch.a s.latch.b = .error e) :
    exec .log s = .next (failsWith s e.number) := by
  rw [exec, execLog, h]
  rfl

end

theorem exec_log2 (s : State) : exec .log2 s = .next (completes s (binLogCore s.latch.a)) := rfl

/-- R210: 0 is below every base but 0, so the loop ends before its first division. -/
theorem logCore_of_zero {base : Word} (hb : base ≠ 0) : logCore 0 base = .ok 0 :=
  if_neg (BitVec.not_le.mpr ((BitVec.pos_iff_ne_zero base).mpr hb))

/-- R214: both loops count the floor logarithm to base 2. -/
theorem logCore_two (n : Word) : logCore n 2 = .ok (binLogCore n) := by
  obtain ⟨r, hr, hlog⟩ := logCore_spec n 2 le_rfl
  rw [hr, BitVec.eq_of_toNat_eq (hlog.trans (binLogCore_spec n).symm)]

/-- Settles O31: the two bad bases, `n = 0`, and the floor logarithm that the loop counts. -/
theorem logIsFloorLogarithm : Obligations.LogIsFloorLogarithm := by
  intro s
  refine ⟨fun hb => ?_, fun hb ha => ?_, fun hb ha => ?_, fun hb ha => ?_⟩
  · exact exec_log_of_error (by rw [hb, logCore_zero])
  · exact exec_log_of_error (by rw [hb, logCore_one, if_neg ha])
  · exact exec_log_of_ok (by rw [ha, logCore_of_zero hb])
  · obtain ⟨c, hc, hlog⟩ := logCore_spec s.latch.a s.latch.b hb
    have hpos : s.latch.a.toNat ≠ 0 := BitVec.toNat_ne_iff_ne.mpr ha
    refine ⟨c, exec_log_of_ok hc, ?_⟩
    rw [hlog]
    exact ⟨Nat.pow_log_le_self _ hpos, Nat.lt_pow_succ_log_self hb _⟩

/-- Settles O32: the floor logarithm to base 2 is the index of the highest set bit. -/
theorem logTwoIsHighestSetBit : Obligations.LogTwoIsHighestSetBit := by
  intro s
  refine ⟨fun ha => ?_, fun ha => ⟨_, exec_log2 s, ?_⟩⟩
  · rw [exec_log2, ha]
    rfl
  · have hpos : s.latch.a.toNat ≠ 0 := BitVec.toNat_ne_iff_ne.mpr ha
    rw [binLogCore_spec]
    refine ⟨Nat.le_of_lt_succ (Nat.log_lt_of_lt_pow hpos s.latch.a.isLt), ?_, fun k hk => ?_⟩
    · rw [← BitVec.testBit_toNat, ← Nat.log2_eq_log_two, Nat.testBit_log2 hpos]
    · rw [← BitVec.testBit_toNat]
      exact Nat.testBit_lt_two_pow (Nat.lt_pow_of_log_lt Nat.one_lt_two hk)

/-- Settles O33: LOG writes the binary loop's count too. -/
theorem logOfBaseTwoIsLogTwo : Obligations.LogOfBaseTwoIsLogTwo := by
  intro s hb
  have hlog : logCore s.latch.a s.latch.b = .ok (binLogCore s.latch.a) := by rw [hb, logCore_two]
  rw [exec_log_of_ok hlog, exec_log2]

end Sys2Proof.Machine
end

section
/-! PROOFS. How a command ends: with one of the two completions, and what a failed one writes besides STATUS; and what one step does to
STATUS (60_exceptions.md R233 to R236). -/

namespace Sys2Proof.Machine

open Sys2Proof.Claims

section
variable {i : Instr} {s t : State}

/-- R230, R233: a STATUS that an error completion leaves, its code one of the six. -/
def IsErrorStatus (u : Status) : Prop := ∃ code : BitVec 4, 1 ≤ code.toNat ∧ code.toNat ≤ 6 ∧ u = errStatus code

theorem isErrorStatus_raise (e : ErrorCode) (s : State) : IsErrorStatus (s.raise e).status := by
  obtain ⟨hlo, hhi⟩ := errorCode_number_bounds e
  exact ⟨e.number, hlo, hhi, rfl⟩

theorem IsErrorStatus.sticky {u : Status} (h : IsErrorStatus u) : u.sticky = true := by
  obtain ⟨code, _, _, rfl⟩ := h
  rfl

@[simp] theorem advanceCursor_status (s : State) : (advanceCursor s).status = s.status := by
  rw [advanceCursor_frame]

/-- R233, R236: no command writes STATUS before it ends with one of the two completions. -/
theorem exec_completes (i : Instr) (s : State) :
    ∃ u : State, u.status = s.status ∧ (exec i s = .next u.succeed ∨ ∃ e, exec i s = .next (u.raise e)) := by
  rcases exec_cases i s with ⟨e, h⟩ | ⟨_, h⟩ | ⟨_, _, _, h⟩ | ⟨_, _, _, _, h⟩ | ⟨_, _, _, h⟩ | ⟨_, _, _, h⟩ |
    ⟨_, _, _, _, h⟩ | ⟨_, _, _, _, h⟩
  · exact ⟨s, rfl, .inr ⟨e, h⟩⟩
  · exact ⟨_, writeRes_status .., .inl h⟩
  · exact ⟨_, by simp, .inl h⟩
  · exact ⟨_, setCursor_status .., .inl h⟩
  · exact ⟨_, writeAux_status .., .inl h⟩
  · exact ⟨_, setCursor_status .., .inr ⟨_, h⟩⟩
  · exact ⟨_, by simp, .inl h⟩
  · rw [runProbe] at h
    split at h
    · exact ⟨_, setRepstat_status .., .inr ⟨_, h⟩⟩
    · exact ⟨_, by simp, .inl h⟩

theorem exec_status_cases (h : exec i s = .next t) : t.status = okStatus s ∨ IsErrorStatus t.status := by
  obtain ⟨u, hu, hx | ⟨e, hx⟩⟩ := exec_completes i s
  · cases hx.symm.trans h
    exact .inl (by rw [succeed_status, hu, okStatus])
  · cases hx.symm.trans h
    exact .inr (isErrorStatus_raise e u)

/-- Settles O14: either completion leaves no command in flight. -/
theorem everyCommandCompletes : Obligations.EveryCommandCompletes := by
  intro i s
  obtain ⟨u, _, hx | ⟨e, hx⟩⟩ := exec_completes i s
  · exact ⟨_, hx, rfl, exec_status_cases hx⟩
  · exact ⟨_, hx, rfl, exec_status_cases hx⟩

/-! Failed commands -/

/-- R106, R234: BSR_NEXT fails without the companion unit and beyond the buffer. -/
theorem exec_bsrNext_failed (h : exec .bsrNext s = .next t) (herr : t.status.err = true) :
    t = failsWith s 5 ∨ t = { failsWith s 4 with bsrrem := 0, bsrstat := { s.bsrstat with active := false } } := by
  cases hc : s.cfg.hasCompanion with
  | false =>
    obtain ⟨_, hx⟩ := companionCommandsAreIllegalWithoutIt .bsrNext s rfl hc
    cases hx.symm.trans h
    exact .inl rfl
  | true =>
    by_cases h0 : s.bsrrem = 0
    · cases (exec_bsrNext_of_exhausted hc h0).symm.trans h
      cases herr
    by_cases hlen : s.cfg.bufLen.val ≤ s.bsrbyte.toNat
    · cases (exec_bsrNext_of_beyond hc h0 hlen).symm.trans h
      exact .inr rfl
    · cases (exec_bsrNext_of_within hc h0 (Nat.not_le.mp hlen)).symm.trans h
      cases herr

/-- R121, R234: REPGET fails without the companion unit and where the probe fails, now or before. -/
theorem exec_repget_failed (h : exec .repget s = .next t) (herr : t.status.err = true) :
    t = failsWith s 5 ∨ t = { failsWith s 1 with repstat := { s.repstat with fatal := true } } := by
  cases hc : s.cfg.hasCompanion with
  | false =>
    obtain ⟨_, hx⟩ := companionCommandsAreIllegalWithoutIt .repget s rfl hc
    cases hx.symm.trans h
    exact .inl rfl
  | true =>
    cases hv : s.repstat.valid with
    | true =>
      cases (exec_repget_of_valid hc hv).symm.trans h
      cases herr
    | false =>
      cases hf : s.repstat.fatal with
      | true =>
        cases (exec_repget_of_fatal hc hv hf).symm.trans h
        rw [← hf]
        exact .inr rfl
      | false =>
        cases (exec_repget_of_unprobed hc hv hf).symm.trans h
        cases hp : probe s.cfg.hostRep with
        | none => exact .inr (runProbe_of_none rfl hp)
        | some r =>
          rw [runProbe_of_some hf rfl hp] at herr
          cases herr

/-- R234: any other command writes nothing before it fails. -/
theorem exec_failed_of_other (hnext : i ≠ .bsrNext) (hrep : i ≠ .repget) (h : exec i s = .next t)
    (herr : t.status.err = true) : t = { s with status := t.status, remaining := 0 } := by
  rcases exec_cases i s with ⟨_, hx⟩ | ⟨_, hx⟩ | ⟨_, _, _, hx⟩ | ⟨_, _, _, _, hx⟩ | ⟨hi, _⟩ | ⟨hi, _⟩ | ⟨hi, _⟩ | ⟨hi, _⟩
  · cases hx.symm.trans h
    rfl
  · cases hx.symm.trans h
    cases herr
  · cases hx.symm.trans h
    cases herr
  · cases hx.symm.trans h
    cases herr
  · exact absurd hi hnext
  · exact absurd hi hnext
  · exact absurd hi hnext
  · exact absurd hi hrep

/-- Settles O15: the two commands with an exception, each with its failures, and all others. -/
theorem failedCommandWritesOnlyStatus : Obligations.FailedCommandWritesOnlyStatus := by
  intro i s t h herr
  by_cases hnext : i = .bsrNext
  · subst hnext
    rcases exec_bsrNext_failed h herr with rfl | rfl
    · exact ⟨fun ⟨_, hcode⟩ => absurd hcode (show (5#4) ≠ 4 by decide), fun ⟨hi, _⟩ => Instr.noConfusion hi, fun _ _ => rfl⟩
    · exact ⟨fun _ => rfl, fun ⟨hi, _⟩ => Instr.noConfusion hi, fun hno _ => absurd ⟨rfl, rfl⟩ hno⟩
  by_cases hrep : i = .repget
  · subst hrep
    rcases exec_repget_failed h herr with rfl | rfl
    · exact ⟨fun ⟨hi, _⟩ => Instr.noConfusion hi, fun ⟨_, hcode⟩ => absurd hcode (show (5#4) ≠ 1 by decide), fun _ _ => rfl⟩
    · exact ⟨fun ⟨hi, _⟩ => Instr.noConfusion hi, fun _ => rfl, fun _ hno => absurd ⟨rfl, rfl⟩ hno⟩
  · exact ⟨fun ⟨hi, _⟩ => absurd hi hnext, fun ⟨hi, _⟩ => absurd hi hrep,
      fun _ _ => exec_failed_of_other hnext hrep h herr⟩

/-! What one step does to STATUS -/

/-- R26, R27, R233, R236: the STATUS words that a step other than a reset can leave after `s`: what it was, that of a command just started,
and those of the two completions. -/
def StatusAfter (s : State) (u : Status) : Prop :=
  u = s.status ∨ u = { s.status with busy := true, done := false } ∨ u = okStatus s ∨ IsErrorStatus u

theorem clock_status (h : clock s = .next t) : StatusAfter s t.status := by
  rcases clock_next_cases h with ⟨_, rfl⟩ | ⟨_, i, _, he⟩ | ⟨_, rfl⟩
  · exact .inl rfl
  · exact .inr (.inr (exec_status_cases he))
  · exact .inr (.inr (.inr (isErrorStatus_raise _ s)))

theorem startCommand_status {w : Word} (h : startCommand w s = .next t) : StatusAfter s t.status := by
  rcases startCommand_cases w s with ⟨_, _, hc⟩ | ⟨_, _, _, hc⟩ | ⟨_, _, _, hc⟩
  all_goals cases hc.symm.trans h
  · exact .inr (.inr (.inr (isErrorStatus_raise _ { s with cmd := w })))
  · exact .inr (.inl (issue_status ..))

theorem hostWrite_status {g : Target} {bytes data : Nat} (h : hostWrite g bytes data s = .next t) :
    StatusAfter s t.status := by
  rcases hostWrite_cases g bytes data s t h with rfl | ⟨_, rfl⟩ | ⟨_, rfl⟩ | ⟨_, _, _, _, rfl⟩ | ⟨_, _, hs⟩
  · exact .inl rfl
  · exact .inl rfl
  · exact .inl rfl
  · exact .inl rfl
  · exact startCommand_status hs

theorem hostAccess_status {a : Access} (h : hostAccess a s = .next t) : StatusAfter s t.status := by
  rcases hostAccess_cases a s t h with ⟨_, _, _, _, rfl⟩ | ⟨_, _, _, hw⟩
  · exact .inl rfl
  · exact (hostWrite_status hw :)

/-- A step is a reset, which clears STATUS, or leaves one of the words of `StatusAfter`. -/
theorem step_status_cases (h : step s = .next t) :
    ((∃ rest, s.host = .reset :: rest) ∧ t.status = (State.resetOf s.cfg).status) ∨ StatusAfter s t.status := by
  rcases step_next_cases h with ⟨rest, _, hc⟩ | ⟨rest, hh, rfl⟩ | ⟨a, rest, _, ha⟩
  · exact .inr (clock_status hc :)
  · exact .inl ⟨⟨rest, hh⟩, rfl⟩
  · exact .inr (hostAccess_status ha :)

theorem StatusAfter.sticky {u : Status} (h : StatusAfter s u) (hs : s.status.sticky = true) : u.sticky = true := by
  rcases h with rfl | rfl | rfl | he
  · exact hs
  · exact hs
  · exact hs
  · exact he.sticky

/-- R235: only an error completion brings DONE and ERR together into STATUS anew. -/
theorem StatusAfter.sticky_of_failed {u : Status} (h : StatusAfter s u) (hne : u ≠ s.status) (hdone : u.done = true)
    (herr : u.err = true) : u.sticky = true := by
  rcases h with rfl | rfl | rfl | he
  · exact absurd rfl hne
  · cases hdone
  · cases herr
  · exact he.sticky

end

/-- Settles O16: a step other than a reset keeps STICKY or fails a command, which sets it; a reset clears STATUS. -/
theorem stickyClearedOnlyByReset : Obligations.StickyClearedOnlyByReset := by
  refine ⟨fun s t h hreset hs => ?_, fun i s t h herr => ?_, fun s t h hne hdone herr => ?_, fun s rest hh => ?_⟩
  · rcases step_status_cases h with ⟨⟨rest, hh⟩, _⟩ | hst
    · exact absurd hh (hreset rest)
    · exact hst.sticky hs
  · rcases exec_status_cases h with hok | he
    · rw [hok] at herr
      cases herr
    · exact he.sticky
  · rcases step_status_cases h with ⟨_, hclear⟩ | hst
    · rw [hclear] at herr
      cases herr
    · exact hst.sticky_of_failed hne hdone herr
  · exact ⟨_, resetInputRestoresResetState s rest hh, rfl⟩

end Sys2Proof.Machine
end

section
/-! PROOFS. What a command's effect depends on: it is the effect on a block just reset that holds only what the command may read
(00_scope.md R11, 60_exceptions.md R245, 70_reset_and_hazards.md R282). -/

namespace Sys2Proof.Machine

open Sys2Proof.Claims

/-- R282: the block right after reset, but for what the command may read in `s`: the latched operands, HAS_COMPANION, BUF_LEN, BUF, the
cursor, the count of draws and, for REPGET, HOST_REP and REPSTAT. -/
def onlyInputs (i : Instr) (s : State) : State :=
  let clear := State.resetOf { Config.ofVectors with
    hasCompanion := s.cfg.hasCompanion, bufLen := s.cfg.bufLen
    hostRep := if i = .repget then s.cfg.hostRep else Config.ofVectors.hostRep }
  { clear with
    latch := { clear.latch with a := s.latch.a, b := s.latch.b }
    buf := s.buf, bsrstat := s.bsrstat, bsrbyte := s.bsrbyte, bsrrem := s.bsrrem, draws := s.draws
    repstat := if i = .repget then s.repstat else clear.repstat }

/-- `s` with what a command that ran on `onlyInputs i s` wrote there to get to `u`. -/
def graft (i : Instr) (u s : State) : State :=
  { s with
    res := if u.resWritten then u.res else s.res
    resWritten := u.resWritten || s.resWritten
    aux := if u.auxWritten then u.aux else s.aux
    auxWritten := u.auxWritten || s.auxWritten
    status := { u.status with sticky := u.status.sticky || s.status.sticky }
    repstat := if i = .repget then u.repstat else s.repstat
    bsrstat := u.bsrstat, bsrbyte := u.bsrbyte, bsrrem := u.bsrrem, remaining := u.remaining, draws := u.draws }

/-- The outcome `o` on `s` is the outcome `o'` on `onlyInputs i s`, carried over. -/
def Mirrors (i : Instr) (s : State) (o' o : Host.Outcome State Fault Refusal) : Prop :=
  ∃ u, o' = .next u ∧ o = .next (graft i u s)

section
variable {i : Instr} {s : State}

/-- Whether the command may read REPSTAT or not, it is kept where the command does not write it. -/
theorem ite_onlyInputs_repstat (i : Instr) (s : State) :
    (if i = .repget then (onlyInputs i s).repstat else s.repstat) = s.repstat := by
  split
  case isTrue hi => exact if_pos hi
  case isFalse => rfl

theorem mirrors_raise (e : ErrorCode) : Mirrors i s (.next ((onlyInputs i s).raise e)) (.next (s.raise e)) := by
  refine ⟨_, rfl, ?_⟩
  rw [graft, raise_repstat, ite_onlyInputs_repstat]
  rfl

theorem mirrors_writeRes (v : Word) :
    Mirrors i s (.next ((onlyInputs i s).writeRes v).succeed) (.next (s.writeRes v).succeed) := by
  refine ⟨_, rfl, ?_⟩
  rw [graft, succeed_repstat, writeRes_repstat, ite_onlyInputs_repstat]
  rfl

theorem mirrors_ite {p : Prop} [Decidable p] {x' x y' y : Host.Outcome State Fault Refusal}
    (hx : p → Mirrors i s x' x) (hy : ¬ p → Mirrors i s y' y) :
    Mirrors i s (if p then x' else y') (if p then x else y) := by
  split
  case isTrue h => exact hx h
  case isFalse h => exact hy h

theorem mirrors_companion {o' o : Host.Outcome State Fault Refusal} (h : Mirrors i s o' o) :
    Mirrors i s (companion (onlyInputs i s) o') (companion s o) :=
  mirrors_ite (fun _ => h) fun _ => mirrors_raise _

/-- R140: both see the same operands, so both convert them or both fail. -/
theorem mirrors_prepared (f : Fmt) {k : Word → Word → State → State}
    (hk : ∀ l r, Mirrors i s (.next (k l r (onlyInputs i s)).succeed) (.next (k l r s).succeed)) :
    Mirrors i s (prepared f k (onlyInputs i s)) (prepared f k s) := by
  rcases prepared_cases f k s with ⟨l, r, hl, hr, h⟩ | ⟨hl, h⟩
  · rcases prepared_cases f k (onlyInputs i s) with ⟨l', r', hl', hr', h'⟩ | ⟨hl', _⟩
    · cases hl.symm.trans hl'
      cases hr.symm.trans hr'
      rw [h, h']
      exact hk l r
    · cases hl.symm.trans hl'
  · rcases prepared_cases f k (onlyInputs i s) with ⟨_, _, hl', _⟩ | ⟨_, h'⟩
    · cases hl.symm.trans hl'
    · rw [h, h']
      exact mirrors_raise _

theorem mirrors_logic (f : Fmt) (op : Word → Word → Word) :
    Mirrors i s (companion (onlyInputs i s) (prepared f (fun l r s => s.writeRes (op l r)) (onlyInputs i s)))
      (companion s (prepared f (fun l r s => s.writeRes (op l r)) s)) :=
  mirrors_companion (mirrors_prepared f fun _ _ => mirrors_writeRes _)

theorem mirrors_log : Mirrors .log s (exec .log (onlyInputs .log s)) (exec .log s) := by
  cases h : logCore s.latch.a s.latch.b with
  | ok c =>
    rw [exec_log_of_ok h, exec_log_of_ok (s := onlyInputs .log s) h]
    exact mirrors_writeRes c
  | error e =>
    rw [exec_log_of_error h, exec_log_of_error (s := onlyInputs .log s) h]
    exact mirrors_raise e

/-- R63, R105: both read the same byte, or draw it. -/
theorem mirrors_produceElement (k : Nat) :
    Mirrors .bsrNext s
      (.next (produceElement ((onlyInputs .bsrNext s).bufByte k) ((onlyInputs .bsrNext s).afterBufRead k)))
      (.next (produceElement (s.bufByte k) (s.afterBufRead k))) := by
  rw [produceElement_eq_producesFrom, produceElement_eq_producesFrom]
  cases hk : s.buf.read k with
  | some y =>
    obtain ⟨hbyte, hafter⟩ := bufRead_written k s y hk
    obtain ⟨hbyte', hafter'⟩ := bufRead_written k (onlyInputs .bsrNext s) y hk
    rw [hbyte, hafter, hbyte', hafter']
    exact ⟨_, rfl, rfl⟩
  | none =>
    obtain ⟨hbyte, hafter⟩ := bufRead_unwritten k s hk
    obtain ⟨hbyte', hafter'⟩ := bufRead_unwritten k (onlyInputs .bsrNext s) hk
    rw [hbyte, hafter, hbyte', hafter']
    exact ⟨_, rfl, rfl⟩

theorem mirrors_runProbe (hf : s.repstat.fatal = false) :
    Mirrors .repget s (.next (runProbe (onlyInputs .repget s))) (.next (runProbe s)) := by
  cases hp : probe s.cfg.hostRep with
  | none =>
    rw [runProbe_of_none rfl hp, runProbe_of_none (s := onlyInputs .repget s) rfl hp]
    exact ⟨_, rfl, rfl⟩
  | some r =>
    rw [runProbe_of_some hf rfl hp, runProbe_of_some (s := onlyInputs .repget s) hf rfl hp]
    exact ⟨_, rfl, rfl⟩

end

/-- R282: every command has on any state the effect that it has on what it may read of that state. -/
theorem exec_mirrors_onlyInputs (i : Instr) (s : State) : Mirrors i s (exec i (onlyInputs i s)) (exec i s) := by
  cases i
  case ones | twos | tc2sm | sm2tc | add | sub | mul | sqrt | log2 => exact mirrors_writeRes _
  case smag => exact ⟨_, rfl, rfl⟩
  case div | mod => exact mirrors_ite (fun _ => mirrors_raise _) fun _ => mirrors_writeRes _
  case log => exact mirrors_log
  case prep f => exact mirrors_prepared f (k := fun l r s => (s.writeRes l).writeAux r) fun _ _ => ⟨_, rfl, rfl⟩
  case and f | or f | xor f | nand f | nor f | xxor f => exact mirrors_logic f _
  case bxor => exact mirrors_companion (mirrors_writeRes _)
  case bsrInit p rev => exact mirrors_companion ⟨_, rfl, rfl⟩
  case bsrNext =>
    exact mirrors_companion <| mirrors_ite (fun _ => ⟨_, rfl, rfl⟩) fun _ =>
      mirrors_ite (fun _ => ⟨_, rfl, rfl⟩) fun _ => mirrors_produceElement _
  case repget =>
    exact mirrors_companion <| mirrors_ite (fun _ => mirrors_writeRes _) fun _ =>
      mirrors_ite (fun _ => mirrors_raise _) fun hf => mirrors_runProbe (Bool.eq_false_iff.mpr hf)

/-- Settles O21: both states give the command the same inputs, so both get the same effect. -/
theorem resultsDependOnlyOnLatchedInputs : Obligations.ResultsDependOnlyOnLatchedInputs := by
  intro i s1 s2 t1 t2 ha hb hc hlen hbuf hstat hbyte hrem hdraws hrep h1 h2
  have hinputs : onlyInputs i s1 = onlyInputs i s2 := by
    rw [onlyInputs, onlyInputs, ha, hb, hc, hlen, hbuf, hstat, hbyte, hrem, hdraws]
    by_cases hi : i = .repget
    · obtain ⟨hhost, hst⟩ := hrep hi
      rw [hhost, hst]
    · rw [if_neg hi, if_neg hi, if_neg hi, if_neg hi]
  obtain ⟨u, hu1, hx1⟩ := exec_mirrors_onlyInputs i s1
  obtain ⟨u', hu2, hx2⟩ := exec_mirrors_onlyInputs i s2
  rw [hinputs] at hu1
  cases hu1.symm.trans hu2
  cases hx1.symm.trans h1
  cases hx2.symm.trans h2
  refine ⟨rfl, rfl, rfl, rfl, rfl, ?_, ?_, fun hi => ?_⟩
  · cases hw : u.resWritten <;> simp [graft, hw]
  · cases hw : u.auxWritten <;> simp [graft, hw]
  · simp [graft, hi]

/-- R12: the block with another latency table. -/
def withLatencies (l : List LatencyEntry) (s : State) : State := { s with cfg := { s.cfg with latencies := l } }

/-- R282: no command reads the latency table. -/
theorem exec_withLatencies {i : Instr} {s t : State} (l : List LatencyEntry) (h : exec i s = .next t) :
    exec i (withLatencies l s) = .next (withLatencies l t) := by
  obtain ⟨u, hu, hx⟩ := exec_mirrors_onlyInputs i s
  obtain ⟨u', hu', hx'⟩ := exec_mirrors_onlyInputs i (withLatencies l s)
  cases hu.symm.trans hu'
  cases hx.symm.trans h
  exact hx'

/-- Settles O7: each run ends with the command executed on what was latched, and the two executions differ only in the table. -/
theorem latencyHasNoEffectOnResults : Obligations.LatencyHasNoEffectOnResults := by
  intro s a w i l1 l2 at' hfree haddr htr hidle hd ho
  have hrun (l : List LatencyEntry) :
      runSafely (latencyOf { s.cfg with latencies := l } w s.opa s.opb + 1) (at' l) =
        nextOf (exec i (withLatencies l (started (taken s a []) w 1))) := by
    have hp : Pending (at' l) a (List.replicate (latencyOf { s.cfg with latencies := l } w s.opa s.opb) .cycle ++ [])
        0x008 (.write 4 w.toNat) := ⟨congrArg _ (List.append_nil _).symm, hfree, haddr, htr, by decide⟩
    exact (commandRunsAfterItsLatency (at' l) a [] w i hp hidle hd ho).1
  obtain ⟨t, ht, _⟩ := everyCommandCompletes i (started (taken s a []) w 1)
  refine ⟨withLatencies l1 t, withLatencies l2 t, ?_, ?_, rfl⟩
  · rw [hrun, exec_withLatencies l1 ht, nextOf]
  · rw [hrun, exec_withLatencies l2 ht, nextOf]

end Sys2Proof.Machine
end

section
/-! PROOFS. The host contract violations (70_reset_and_hazards.md R280): each access that is one stops the run with its fault. -/

namespace Sys2Proof.Machine

open Sys2Proof.Claims

theorem target_of_misaligned {cfg : Config} {off : Nat} (hlt : off < 0x1000) (h4 : off % 4 ≠ 0) :
    target cfg (cfg.base + BitVec.ofNat 32 off) = .misaligned := by
  simp only [target]
  rw [offsetOf_base _ _ (by omega), if_pos hlt, if_pos h4]

/-- R60, R61: what the register range is made of. -/
theorem target_of_registerRange {cfg : Config} {off : Nat} (hlt : off < 0x1000) (h4 : off % 4 = 0) :
    (∃ r, target cfg (cfg.base + BitVec.ofNat 32 off) = .register r) ∨
      target cfg (cfg.base + BitVec.ofNat 32 off) = .reserved := by
  cases hr : Reg.ofOffset off with
  | none => exact .inr (target_of_reserved hlt h4 hr)
  | some r =>
    rw [Reg.offset_of_ofOffset hr]
    exact .inl ⟨r, target_of_register r⟩

/-- A transfer of `n` bytes at the target `g` is the violation `f`, read or write. -/
def FaultsAt (g : Target) (n : Nat) (f : Fault) : Prop :=
  ∀ (d : Nat) (s : State), hostRead g n s = .fault f ∧ hostWrite g n d s = .fault f

/-- R61: an access in the register range is an aligned 32-bit word. -/
theorem faultsAt_registerRange {cfg : Config} {off n : Nat} (hlt : off < 0x1000) (hbad : off % 4 ≠ 0 ∨ n ≠ 4) :
    FaultsAt (target cfg (cfg.base + BitVec.ofNat 32 off)) n .registerAccessForm := by
  intro d s
  by_cases h4 : off % 4 = 0
  · have hn : n ≠ 4 := hbad.resolve_left (not_not_intro h4)
    rcases target_of_registerRange (cfg := cfg) hlt h4 with ⟨r, hg⟩ | hg
    · rw [hg]
      exact ⟨if_neg hn, if_neg hn⟩
    · rw [hg]
      exact ⟨if_neg hn, if_neg hn⟩
  · rw [target_of_misaligned hlt h4]
    exact ⟨rfl, rfl⟩

/-- R62: an access in the BUF range is one byte. -/
theorem faultsAt_bufWindow {k n : Nat} (hn : n ≠ 1) : FaultsAt (.bufWindow k) n .bufAccessForm :=
  fun _ _ => ⟨if_neg hn, if_neg hn⟩

section
variable {s : State} {a : Access} {rest : List HostEvent} {off n d : Nat}

theorem step_of_faultsAt {f : Fault} (hf : FaultsAt (target s.cfg (s.cfg.base + BitVec.ofNat 32 off)) n f)
    (hp : Pending s a rest off (.read n) ∨ Pending s a rest off (.write n d)) : step s = .fault f := by
  obtain ⟨hread, hwrite⟩ := hf d (taken s a rest)
  rcases hp with hp | hp
  · exact (step_of_pendingRead hp).trans hread
  · exact (step_of_pendingWrite hp).trans hwrite

/-- R76: an access of an agent inside another's sequence. -/
theorem interleaves_of_other {g : Nat} (ho : s.owner = some g) (hne : g ≠ a.agent) : interleaves a s = true := by
  simp [interleaves, ho, hne]

end

section
variable {i : Instr} {s : State}

/-- R83: a command reads the operands that its row of the encoding table names. -/
theorem readsA_of_needsOpa (h : needsOpa i) : readsA i = true := by
  obtain ⟨hnext, hrep⟩ := h
  cases i
  case bsrNext => exact absurd rfl hnext
  case repget => exact absurd rfl hrep
  all_goals rfl

theorem readsB_of_needsOpb (h : needsOpb i) : readsB i = true := by
  cases i
  case bsrNext | repget | ones | twos | smag | tc2sm | sm2tc | sqrt | log2 => exact absurd (by simp) h
  all_goals rfl

/-- R36: one operand that the command reads and the host has not written suffices. -/
theorem operandsWritten_eq_false
    (h : (needsOpa i ∧ s.opaWritten = false) ∨ (needsOpb i ∧ s.opbWritten = false)) : operandsWritten i s = false := by
  rcases h with ⟨hreads, hno⟩ | ⟨hreads, hno⟩
  · simp [operandsWritten, readsA_of_needsOpa hreads, hno]
  · simp [operandsWritten, readsB_of_needsOpb hreads, hno]

theorem writeCmd_of_busy (hb : s.status.busy = true) (w : Word) : writeRegister .cmd w s = .fault .cmdWriteWhileBusy :=
  if_pos hb

theorem writeCmd_of_unwritten {w : Word} (hidle : s.status.busy = false) (hd : decode s.cfg.hasCompanion w = .ok i)
    (ho : operandsWritten i s = false) : writeRegister .cmd w s = .fault .unwrittenOperand := by
  simp [writeRegister, hidle, startCommand, hd, ho]

theorem writeBufWindow_of_busy {k : Nat} (hk : hasBufByte k s = true) (hb : s.status.busy = true) (v : Byte) :
    writeBufWindow k v s = .fault .bufWriteWhileBusy :=
  (if_pos hk).trans (if_pos hb)

end

/-- Settles O53: a write while BUSY, of CMD or of a byte the buffer has, an unwritten operand, the two access forms, and the port's
owner. -/
theorem hostContractViolationsFault : Obligations.HostContractViolationsFault := by
  refine ⟨fun s a rest d hp hb => ?_, fun s a rest i d hp hc hi hb => ?_, fun s a rest w i hp hidle hd hno => ?_,
    fun s a rest off n d hlt hbad hp => ?_, fun s a rest off n d hge hn hp => ?_, fun s a rest g hh ho hne => ?_⟩
  · exact (step_of_registerWrite (r := .cmd) hp).trans (writeCmd_of_busy (s := taken s a rest) hb _)
  · rw [step_of_bufWrite hp (Nat.le_add_right ..), Nat.add_sub_cancel_left]
    exact writeBufWindow_of_busy (s := taken s a rest) (hasBufByte_eq_true hc hi) hb _
  · rw [step_of_wordWrite (r := .cmd) hp]
    exact writeCmd_of_unwritten (s := taken s a rest) hidle hd (operandsWritten_eq_false hno)
  · exact step_of_faultsAt (faultsAt_registerRange hlt hbad) hp
  · have hwindow : off < 0x101000 := hp.elim offset_lt_of_pending offset_lt_of_pending
    refine step_of_faultsAt ?_ hp
    rw [target_of_bufWindow hge hwindow]
    exact faultsAt_bufWindow hn
  · have hport : interleaves a { s with host := rest } = true := interleaves_of_other ho hne
    exact (step_of_access hh).trans (if_pos hport)

end Sys2Proof.Machine
end
